-- ==== Sys2Proof/Word.lean ====
section
/-! DEFINITION. The bit patterns of the block, by width (00_scope.md R5, R6; 10_state.md R10). The unsigned reading
`u(p)` of R6 is `BitVec.toNat`, its two's complement reading `s(p)` is `BitVec.toInt`. -/
namespace Sys2Proof

/-- A data byte, a character or a field length: the 8-bit `arg` of a command word (30_encoding.md R40, R43). -/
abbrev Byte := BitVec 8

/-- A command word, `cmd[11:0]` (30_encoding.md R40). -/
abbrev CmdWord := BitVec 12

/-- A value of the CRC accumulator and of the result of CRC.GET (00_scope.md R4, CRC_WIDTH). -/
abbrev CrcWord := BitVec 16

/-- A value of the decimal accumulator and of the result of DEC.GET (00_scope.md R4, DEC_WIDTH). -/
abbrev DecWord := BitVec 32

end Sys2Proof
end

