-- ==== Sys2Proof/Config.lean ====
section
/-! DEFINITION. The implementation parameters of 00_scope.md R4 and the open parameter STRICT_ARG of
92_eei_decisions.md D6. Each has the value the spec gives it; none is free (93_implementation_defined.md: no behaviour
of the block yields a nondeterministic value). -/
namespace Sys2Proof.Config

/-- CRC_POLY (R4): the polynomial, fixed and not programmable. -/
def crcPoly : CrcWord := 0x1021#16

/-- CRC_INIT (R4): what CRC.INIT puts into the accumulator. -/
def crcInit : CrcWord := 0x0000#16

/-- CRC_ROUNDS_PER_BYTE (R4). -/
def crcRoundsPerByte : Nat := 8

/-- DEC_RADIX (R4). -/
def decRadix : Nat := 10

/-- DIGIT_LO (R4): the ASCII code of the character 0. PRESUMED by the spec itself (93_implementation_defined.md G2), unsafe: log entry 10. -/
def digitLo : Byte := 0x30#8

/-- DIGIT_HI (R4): the ASCII code of the character 9. PRESUMED as `digitLo`, unsafe: log entry 10. -/
def digitHi : Byte := 0x39#8

/-- MINUS (R4): the ASCII code of the minus sign. PRESUMED as `digitLo`, unsafe: log entry 10. -/
def minus : Byte := 0x2D#8

/-- STRICT_ARG (92_eei_decisions.md D6): whether an operand-less command with `arg` not 0 is refused. The spec's default,
false, "is what every vector of 95_test_vectors.md assumes" (30_encoding.md R44). DESIGN CHOICE of the spec, log entry 6. -/
def strictArg : Bool := false

end Sys2Proof.Config
end

