-- ==== Sys2Proof/Syntax.lean ====
section
/-! DEFINITION. The syntax: the six commands of 30_encoding.md R42 (the rows of opcode_table.json), their mnemonics, the
two kinds of result (R41), and a line of assembly as R49 describes it. -/
namespace Sys2Proof

/-- A decoded command (30_encoding.md R42). The commands that take no operand carry none: R44 says that all 256 words
with their `op` are the same command. -/
inductive Instr where
  /-- CRC.INIT, 40_crc.md R59 -/
  | crcInit
  /-- CRC.UPD b, 40_crc.md R60 -/
  | crcUpd (b : Byte)
  /-- CRC.GET, 40_crc.md R61 -/
  | crcGet
  /-- DEC.INIT len, 41_decimal.md R74 -/
  | decInit (len : Byte)
  /-- DEC.CHR c, 41_decimal.md R75 -/
  | decChr (c : Byte)
  /-- DEC.GET, 41_decimal.md R76 -/
  | decGet
deriving DecidableEq, Repr

/-- The six mnemonics (30_encoding.md R42, R49). -/
inductive Mnemonic where
  | crcInit
  | crcUpd
  | crcGet
  | decInit
  | decChr
  | decGet
deriving DecidableEq, Repr

/-- The two functional units (00_scope.md R1; `op[2]` of 30_encoding.md R46). -/
inductive FunctionalUnit where
  | crc
  | dec
deriving DecidableEq, Repr

/-- The mnemonic of a command. -/
def Instr.mnemonic : Instr → Mnemonic
  | .crcInit => .crcInit
  | .crcUpd _ => .crcUpd
  | .crcGet => .crcGet
  | .decInit _ => .decInit
  | .decChr _ => .decChr
  | .decGet => .decGet

/-- Which unit a command belongs to (10_state.md R20). -/
def Instr.unit : Instr → FunctionalUnit
  | .crcInit => .crc
  | .crcUpd _ => .crc
  | .crcGet => .crc
  | .decInit _ => .dec
  | .decChr _ => .dec
  | .decGet => .dec

/-- Whether a command takes an operand (30_encoding.md R49: `CRC.UPD`, `DEC.CHR` and `DEC.INIT` require exactly one,
the other three take none). -/
def Mnemonic.takesOperand : Mnemonic → Bool
  | .crcInit => false
  | .crcUpd => true
  | .crcGet => false
  | .decInit => true
  | .decChr => true
  | .decGet => false

/-- A result: the sum type of 30_encoding.md R41. -/
inductive Result where
  /-- the 16-bit pattern a CRC.GET yields -/
  | crc16 (p : CrcWord)
  /-- the 32-bit pattern a DEC.GET yields -/
  | dec32 (p : DecWord)
deriving DecidableEq, Repr

/-- The source's typed reading of a result, `s` of its pattern (30_encoding.md R41, 00_scope.md R6). -/
def Result.signed : Result → Int
  | .crc16 p => p.toInt
  | .dec32 p => p.toInt

/-- Which unit yields a result (30_encoding.md R42). -/
def Result.unit : Result → FunctionalUnit
  | .crc16 _ => .crc
  | .dec32 _ => .dec

/-- One line of assembly after its text is read: a mnemonic and at most one operand, its value not yet checked
(30_encoding.md R49; the check is `AsmCommand.wellFormed`). -/
structure AsmCommand where
  mnemonic : Mnemonic
  operand : Option Nat
deriving DecidableEq, Repr

end Sys2Proof
end

