-- ==== Sys2Proof/WellFormed.lean ====
section
/-! DEFINITION. The checks on syntax. A decoded command carries 8-bit operands and every value of them is legal
(30_encoding.md R43), so every `Instr` is well formed; what can be ill formed is a line of assembly (R49) and the
operand of a macro (R51). -/
namespace Sys2Proof

/-- Every command with an 8-bit operand is well formed: "every value is legal" (30_encoding.md R43, for each of the
three operands). -/
def Instr.wellFormed : Instr → Bool
  | .crcInit => true
  | .crcUpd _ => true
  | .crcGet => true
  | .decInit _ => true
  | .decChr _ => true
  | .decGet => true

/-- A command that requires an operand has one (30_encoding.md R49). -/
def AsmCommand.operandPresent (a : AsmCommand) : Bool :=
  !a.mnemonic.takesOperand || a.operand.isSome

/-- A command that takes no operand has none (30_encoding.md R49). -/
def AsmCommand.operandAbsent (a : AsmCommand) : Bool :=
  a.mnemonic.takesOperand || a.operand.isNone

/-- "An operand outside `0 .. 255` is an assembly error" (30_encoding.md R49). -/
def AsmCommand.operandInRange (a : AsmCommand) : Bool :=
  a.operand.all (· < 256)

/-- A line of assembly that assembles (30_encoding.md R49). -/
def AsmCommand.wellFormed (a : AsmCommand) : Bool :=
  a.operandPresent && a.operandAbsent && a.operandInRange

/-- The length operand of the macros `DECODE` and `DECODE+1` is in `0 .. 255`: "A `length` above 255 cannot be
assembled; the macro is refused for it" (30_encoding.md R51). -/
def macroLengthWellFormed (length : Nat) : Bool :=
  length < 256

end Sys2Proof
end

