-- ==== Sys2Proof/Decode.lean ====
section
/-! DEFINITION. The decoder of 30_encoding.md R45, total on all 4096 command words, and after it the encoder, written
from the same table (R42). -/
namespace Sys2Proof

/-- Why a command word decodes to nothing. -/
inductive DecodeError where
  /-- `op` is 0x3, 0x7 or 0x8 to 0xF (30_encoding.md R47) -/
  | reserved
  /-- only under STRICT_ARG: an operand-less command with `arg` not 0 (30_encoding.md R44) -/
  | argNotZero
deriving DecidableEq, Repr

/-- `op = cmd[11:8]` (30_encoding.md R40). -/
def opField (w : CmdWord) : BitVec 4 := w.extractLsb' 8 4

/-- `arg = cmd[7:0]` (30_encoding.md R40). -/
def argField (w : CmdWord) : Byte := w.extractLsb' 0 8

/-- A command that takes no operand: `arg` is ignored, or under STRICT_ARG must be 0 (30_encoding.md R44). -/
def withoutOperand (strict : Bool) (w : CmdWord) (i : Instr) : Except DecodeError Instr :=
  if strict && argField w != 0#8 then .error .argNotZero else .ok i

/-- The decoder, with STRICT_ARG as an argument: the opcode map of 30_encoding.md R42, every other `op` reserved (R47). -/
def decodeWith (strict : Bool) (w : CmdWord) : Except DecodeError Instr :=
  match opField w with
  | 0x0#4 => withoutOperand strict w .crcInit
  | 0x1#4 => .ok (.crcUpd (argField w))
  | 0x2#4 => withoutOperand strict w .crcGet
  | 0x4#4 => .ok (.decInit (argField w))
  | 0x5#4 => .ok (.decChr (argField w))
  | 0x6#4 => withoutOperand strict w .decGet
  | _ => .error .reserved

/-- The block's decoder. -/
def decode (w : CmdWord) : Except DecodeError Instr := decodeWith Config.strictArg w

/-- A reserved command word: the ten values of `op` that 30_encoding.md R47 lists, for every `arg`. -/
def isReserved (w : CmdWord) : Bool :=
  opField w == 0x3#4 || opField w == 0x7#4 || (opField w).getLsbD 3

/-- The `op` of a mnemonic (30_encoding.md R42). -/
def Mnemonic.op : Mnemonic → BitVec 4
  | .crcInit => 0x0#4
  | .crcUpd => 0x1#4
  | .crcGet => 0x2#4
  | .decInit => 0x4#4
  | .decChr => 0x5#4
  | .decGet => 0x6#4

/-- The `op` of a command. -/
def Instr.op (i : Instr) : BitVec 4 := i.mnemonic.op

/-- The `arg` the assembler emits: the operand, or 0x00 where there is none (30_encoding.md R44). -/
def Instr.arg : Instr → Byte
  | .crcInit => 0#8
  | .crcUpd b => b
  | .crcGet => 0#8
  | .decInit len => len
  | .decChr c => c
  | .decGet => 0#8

/-- The word with the two fields `op` and `arg`, `(op << 8) | arg` (30_encoding.md R40, R49). -/
def wordOf (op : BitVec 4) (arg : Byte) : CmdWord := (op.setWidth 12 <<< 8) ||| arg.setWidth 12

/-- The canonical word of a command (30_encoding.md R44, R49). -/
def encode (i : Instr) : CmdWord := wordOf i.op i.arg

/-- One row of the opcode table in match-and-mask form (30_encoding.md R45). -/
structure OpcodeRow where
  mnemonic : Mnemonic
  mask : CmdWord
  pattern : CmdWord
deriving DecidableEq, Repr

/-- The six rows: "every defined command has mask `0xF00` and match `op << 8`" (30_encoding.md R45), as
opcode_table.json lists them. -/
def opcodeRows : List OpcodeRow :=
  [⟨.crcInit, 0xF00#12, 0x000#12⟩, ⟨.crcUpd, 0xF00#12, 0x100#12⟩, ⟨.crcGet, 0xF00#12, 0x200#12⟩,
   ⟨.decInit, 0xF00#12, 0x400#12⟩, ⟨.decChr, 0xF00#12, 0x500#12⟩, ⟨.decGet, 0xF00#12, 0x600#12⟩]

/-- A word matches a row (30_encoding.md R45). -/
def OpcodeRow.matchesWord (r : OpcodeRow) (w : CmdWord) : Bool := w &&& r.mask == r.pattern

/-- What the decoder reads from a command word given as a number. The command interface is 12 bits wide and is no byte
stream (30_encoding.md R40), so the number is the word itself, whatever `nbits` of it the table counts; a number of
more than 12 bits is no command word (DESIGN CHOICE, safe: log entry 12). -/
def decodeTableWord (_nbits w : Nat) : Option Instr :=
  if w < 4096 then (decode (BitVec.ofNat 12 w)).toOption else none

end Sys2Proof
end

