-- ==== Sys2Proof/Machine/Operands.lean ====
section
/-! DEFINITION. The operand forms: a data byte, a character, a length, each the 8-bit `arg` as it stands
(30_encoding.md R43), and the character classes of unit DEC (41_decimal.md R82). -/
namespace Sys2Proof.Machine

/-- A data byte as it enters 16-bit arithmetic on bits 15:8: `zext_16(b) << 8` (30_encoding.md R43, 40_crc.md R57). -/
def byteInHighHalf (b : Byte) : CrcWord := b.setWidth 16 <<< 8

/-- The character classes of 41_decimal.md R82. -/
inductive CharClass where
  | digit
  | minus
  | other
deriving DecidableEq, Repr

/-- A digit: `0x30 <= u(c) <= 0x39` (41_decimal.md R82). -/
def isDigit (c : Byte) : Bool := Config.digitLo ≤ c && c ≤ Config.digitHi

/-- The minus: `c == 0x2D` (41_decimal.md R82). -/
def isMinus (c : Byte) : Bool := c == Config.minus

/-- The class of a character, other "in every remaining case" (41_decimal.md R82). -/
def charClass (c : Byte) : CharClass :=
  if isDigit c then .digit else if isMinus c then .minus else .other

/-- The digit value `d(c) = u(c) - 0x30` (41_decimal.md R82), used for digits only. -/
def digitValue (c : Byte) : Nat := c.toNat - Config.digitLo.toNat

/-- A field length `len = u(arg)` as the value of REM (30_encoding.md R43, 41_decimal.md R74). -/
def lengthOperand (arg : Byte) : Byte := arg

end Sys2Proof.Machine
end

