-- ==== Sys2Proof/Machine/State.lean ====
section
/-! DEFINITION. The state. `BlockState` is the record the spec calls `State`: the five registers of 10_state.md R10 and
nothing else. `State` is what the host's interface steps: the block, and beside it, in `HostLink`, the input and the
output of 00_scope.md R8's `step : State -> Command -> State x Option Result`, which 10_state.md R22 says are no part of
the block's state. -/
namespace Sys2Proof.Machine

/-- What the host presents for one step: 00_scope.md R8 "one command word from the host, or one reset request", and
60_exceptions.md R92 for both in the same step. -/
inductive HostEvent where
  /-- one command word -/
  | command (w : CmdWord)
  /-- a reset request (70_reset_and_hazards.md R105) -/
  | reset
  /-- a reset request and a command word in the same step (70_reset_and_hazards.md R106) -/
  | resetWithCommand (w : CmdWord)
deriving DecidableEq, Repr

/-- The state of the block, "exactly the five registers", 58 bits in all: the record
`{ CRC : 16 bits, ACC : 32 bits, NEG : 1 bit, REM : 8 bits, FIRST : 1 bit }` of 10_state.md R10. -/
structure BlockState where
  /-- CRC, 16 bits: the CRC accumulator (10_state.md R11) -/
  crc : CrcWord
  /-- ACC, 32 bits: the magnitude accumulated so far, modulo 2^32 (10_state.md R12) -/
  acc : DecWord
  /-- NEG, 1 bit: the field's character at index 0 was a minus (10_state.md R14) -/
  neg : Bool
  /-- REM, 8 bits: how many characters of the field are still to be scanned (10_state.md R13) -/
  rem : Byte
  /-- FIRST, 1 bit: the next scanned character is the one at index 0 (10_state.md R14) -/
  first : Bool
deriving DecidableEq, Repr

/-- The host's side of a step, outside the block: "inputs or outputs of a step ... and not part of `State`" (10_state.md
R22). The host's interface gives `step` no argument for the one and no place for the other (log entries 1 and 2). -/
structure HostLink where
  /-- what the host presents from here on, the next step's event first (DESIGN CHOICE, log entry 1) -/
  input : List HostEvent
  /-- the result of the step just taken, none where it yields none (DESIGN CHOICE, log entry 2) -/
  result : Option Result
deriving DecidableEq, Repr

/-- What the host's interface steps: the block beside the host's side of the step. The architectural state is `block`
alone (10_state.md R10). -/
structure State extends block : BlockState, link : HostLink
deriving DecidableEq, Repr

/-- The four registers of unit DEC, the argument and the value of `dec_step` (41_decimal.md R71). -/
structure DecRegs where
  acc : DecWord
  neg : Bool
  rem : Byte
  first : Bool
deriving DecidableEq, Repr

/-- The block has no fault outcome: "A model that wants MODELLING_GUIDE.md's three outcomes keeps the fault outcome
empty for this block" (60_exceptions.md R93). So no step raises one, and there is nothing safe or unsafe about it. -/
inductive Fault where
deriving DecidableEq, Repr

/-- Why a step has no next state. -/
inductive Refusal where
  /-- An instruction that has no meaning yet, raised by an arm of exec; safe. No arm raises it: all six commands have
  their meaning. -/
  | notModelled (mnemonic : String)
  /-- A reserved command word, raised by step where the decoder rejects the word (30_encoding.md R47: "A model refuses
  them: its step function has no next state for a reserved word"); safe, since the word's effect is unspecified
  (93_implementation_defined.md U1). -/
  | reservedWord (w : CmdWord)
  /-- Raised by step only where the open parameter STRICT_ARG is true, for an operand-less command with `arg` not 0
  (30_encoding.md R44); safe. With the spec's default no step raises it. -/
  | argNotZero (w : CmdWord)
deriving DecidableEq, Repr

/-- `reset_state` (10_state.md R21, 70_reset_and_hazards.md R105). -/
def BlockState.reset : BlockState where
  crc := 0x0000#16
  acc := 0x00000000#32
  neg := false
  rem := 0x00#8
  first := true

/-- Right after reset (10_state.md R21, 70_reset_and_hazards.md R105): nothing presented yet, no result. -/
def State.reset : State where
  block := BlockState.reset
  input := []
  result := none

end Sys2Proof.Machine
end

