-- ==== Sys2Proof/Machine/Ops.lean ====
section
/-! DEFINITION. The named operations over the registers of the block, with which every command is written, and those by
which the machine takes an input and hands over a result. The block raises no exception and has no memory
(60_exceptions.md R90, R93; 10_state.md R18), so the one operation beside reading and writing registers is reset. -/
namespace Sys2Proof.Machine

/-- Write register CRC. -/
def BlockState.setCrc (s : BlockState) (v : CrcWord) : BlockState := { s with crc := v }

/-- Read the four registers of unit DEC. -/
def BlockState.decRegs (s : BlockState) : DecRegs := ⟨s.acc, s.neg, s.rem, s.first⟩

/-- Write the four registers of unit DEC. -/
def BlockState.setDec (s : BlockState) (d : DecRegs) : BlockState :=
  { s with acc := d.acc, neg := d.neg, rem := d.rem, first := d.first }

/-- The machine with its block in another state; what the host presents and was given stays. -/
def State.withBlock (s : State) (b : BlockState) : State := { s with block := b }

/-- The result of the step: `result(v)` of 00_scope.md R7 for `some v`; "a command with no `result` line produces none". -/
def State.yielding (s : State) (r : Option Result) : State := { s with result := r }

/-- What the host presents from here on. -/
def State.withInput (s : State) (es : List HostEvent) : State := { s with input := es }

/-- The machine after the block's step `State x Option Result` of 00_scope.md R8. -/
def State.after (s : State) (o : BlockState × Option Result) : State := (s.withBlock o.1).yielding o.2

/-- The reset event (70_reset_and_hazards.md R105): every register at its reset value whatever the state was, no result.
It touches no event the host has yet to present (log entry 5). -/
def State.applyReset (s : State) : State := s.after (BlockState.reset, none)

/-- Nothing is presented: no register changes (70_reset_and_hazards.md R117, 30_encoding.md R48) and no result is
yielded (log entry 3). -/
def State.idle (s : State) : State := s.yielding none

end Sys2Proof.Machine
end

