-- ==== Sys2Proof/Machine/Crc.lean ====
section
/-! DEFINITION. Unit CRC: the functions of 40_crc.md section 1 and the meanings of CRC.INIT, CRC.UPD and CRC.GET. -/
namespace Sys2Proof.Machine

/-- `crc_round` (40_crc.md R56): the high bit is tested before the shift, the XOR applied after it. -/
def crcRound (s : CrcWord) : CrcWord :=
  if s.getLsbD 15 then (s <<< 1) ^^^ Config.crcPoly else s <<< 1

/-- A number of rounds one after another. -/
def crcRounds : Nat → CrcWord → CrcWord
  | 0, s => s
  | n + 1, s => crcRounds n (crcRound s)

/-- `crc_byte` (40_crc.md R57): the byte into bits 15:8, then 8 rounds. -/
def crcByte (s : CrcWord) (b : Byte) : CrcWord :=
  crcRounds Config.crcRoundsPerByte (s ^^^ byteInHighHalf b)

/-- `crc_byte` for each byte of a list in ascending index order, from a given accumulator (40_crc.md R58). -/
def crcFold (s : CrcWord) (bytes : List Byte) : CrcWord := bytes.foldl crcByte s

/-- `crc16(bytes, count)` (40_crc.md R58): the first `count` bytes, from 0x0000, nothing done afterwards. -/
def crc16 (bytes : List Byte) (count : Nat) : CrcWord := crcFold Config.crcInit (bytes.take count)

/-- CRC.INIT on the block (40_crc.md R59). -/
def BlockState.crcInit (s : BlockState) : BlockState × Option Result := (s.setCrc Config.crcInit, none)

/-- CRC.UPD b on the block (40_crc.md R60). -/
def BlockState.crcUpd (s : BlockState) (b : Byte) : BlockState × Option Result := (s.setCrc (crcByte s.crc b), none)

/-- CRC.GET on the block (40_crc.md R61): the accumulator as it stands; nothing is cleared. -/
def BlockState.crcGet (s : BlockState) : BlockState × Option Result := (s, some (.crc16 s.crc))

/-- CRC.INIT. -/
def execCrcInit (s : State) : Host.Outcome State Fault Refusal := .next (s.after s.block.crcInit)

/-- CRC.UPD b. -/
def execCrcUpd (b : Byte) (s : State) : Host.Outcome State Fault Refusal := .next (s.after (s.block.crcUpd b))

/-- CRC.GET. -/
def execCrcGet (s : State) : Host.Outcome State Fault Refusal := .next (s.after s.block.crcGet)

end Sys2Proof.Machine
end

