-- ==== Sys2Proof/Machine/Flags.lean ====
section
/-! DEFINITION. The tests that decide what DEC.CHR does with the flags NEG and FIRST (10_state.md R14, 41_decimal.md
R71). Both flags belong to unit DEC; no command of unit CRC reads or writes a flag, and there is no carry, overflow,
zero or error flag, so no other flag is computed. -/
namespace Sys2Proof.Machine

/-- The field is exhausted: a character offered now changes nothing (41_decimal.md R71, first case). -/
def exhausted (rem : Byte) : Bool := rem == 0#8

/-- The character is a leading minus: FIRST is 1 and the character is 0x2D (41_decimal.md R71, second case). -/
def leadingMinus (first : Bool) (c : Byte) : Bool := first && isMinus c

end Sys2Proof.Machine
end

