-- ==== Sys2Proof/Machine/Decimal.lean ====
section
/-! DEFINITION. Unit DEC: the functions of 41_decimal.md section 1 and the meanings of DEC.INIT, DEC.CHR and DEC.GET. -/
namespace Sys2Proof.Machine

/-- The digit step `(u(ACC) * 10 + d) mod 2^32` (41_decimal.md R71, R78): the exact sum, its low 32 bits kept. -/
def accumulateDigit (acc : DecWord) (c : Byte) : DecWord :=
  BitVec.ofNat 32 (acc.toNat * Config.decRadix + digitValue c)

/-- `dec_step` (41_decimal.md R71), its four cases in the rule's order. -/
def decStep (d : DecRegs) (c : Byte) : DecRegs :=
  if exhausted d.rem then d
  else if leadingMinus d.first c then ⟨d.acc, true, d.rem - 1#8, false⟩
  else if isDigit c then ⟨accumulateDigit d.acc c, d.neg, d.rem - 1#8, false⟩
  else ⟨d.acc, d.neg, d.rem - 1#8, false⟩

/-- `dec_value` (41_decimal.md R72): the negation applied once, to the finished magnitude. -/
def decValue (acc : DecWord) (neg : Bool) : DecWord :=
  if neg then BitVec.ofNat 32 (2 ^ 32 - acc.toNat) else acc

/-- The DEC registers at the start of a field (41_decimal.md R74, and the first line of R73). -/
def fieldStart (length : Byte) : DecRegs := ⟨0#32, false, length, true⟩

/-- `dec_step` for each character of a list in ascending index order (41_decimal.md R73). -/
def decFold (d : DecRegs) (chars : List Byte) : DecRegs := chars.foldl decStep d

/-- `decode_decimal(chars, length)` (41_decimal.md R73): characters at index `length` and beyond are never read. -/
def decodeDecimal (chars : List Byte) (length : Byte) : DecWord :=
  let d := decFold (fieldStart length) (chars.take length.toNat)
  decValue d.acc d.neg

/-- DEC.INIT len on the block (41_decimal.md R74). -/
def BlockState.decInit (s : BlockState) (len : Byte) : BlockState × Option Result :=
  (s.setDec (fieldStart (lengthOperand len)), none)

/-- DEC.CHR c on the block (41_decimal.md R75). -/
def BlockState.decChr (s : BlockState) (c : Byte) : BlockState × Option Result :=
  (s.setDec (decStep s.decRegs c), none)

/-- DEC.GET on the block (41_decimal.md R76): legal in every state, no register changes. -/
def BlockState.decGet (s : BlockState) : BlockState × Option Result := (s, some (.dec32 (decValue s.acc s.neg)))

/-- DEC.INIT len. -/
def execDecInit (len : Byte) (s : State) : Host.Outcome State Fault Refusal := .next (s.after (s.block.decInit len))

/-- DEC.CHR c. -/
def execDecChr (c : Byte) (s : State) : Host.Outcome State Fault Refusal := .next (s.after (s.block.decChr c))

/-- DEC.GET. -/
def execDecGet (s : State) : Host.Outcome State Fault Refusal := .next (s.after s.block.decGet)

end Sys2Proof.Machine
end

