-- ==== Sys2Proof/Machine/Block.lean ====
section
/-! DEFINITION. The block alone, as the spec gives it: `step : State -> Command -> State x Option Result` over the
record of 10_state.md R10, with the command an input and the result an output, neither of them state (00_scope.md R8,
10_state.md R15, R22). -/
namespace Sys2Proof.Machine

/-- The effect of a decoded command on the block. -/
def blockExec (i : Instr) (s : BlockState) : BlockState × Option Result :=
  match i with
  | .crcInit => s.crcInit
  | .crcUpd b => s.crcUpd b
  | .crcGet => s.crcGet
  | .decInit len => s.decInit len
  | .decChr c => s.decChr c
  | .decGet => s.decGet

/-- The command a word stands for, or its refusal by name (30_encoding.md R45, R47). -/
def commandOf (w : CmdWord) : Except Refusal Instr :=
  match decode w with
  | .ok i => .ok i
  | .error .reserved => .error (.reservedWord w)
  | .error .argNotZero => .error (.argNotZero w)

/-- One step of the block (00_scope.md R8), total on the six commands and on reset, refusing every other word; where a
reset and a command come in the same step "reset wins and the command is lost" (60_exceptions.md R92). -/
def blockStep (s : BlockState) (e : HostEvent) : Except Refusal (BlockState × Option Result) :=
  match e with
  | .command w => (commandOf w).map (blockExec · s)
  | .reset => .ok (BlockState.reset, none)
  | .resetWithCommand _ => .ok (BlockState.reset, none)

/-- The block over a list of events, one step each, in order (20_memory.md R35): its state after them and the results
it yields, in order; a refusal ends the run (30_encoding.md R47). -/
def blockRun : List HostEvent → BlockState → Except Refusal (BlockState × List Result)
  | [], s => .ok (s, [])
  | e :: es, s =>
    match blockStep s e with
    | .error r => .error r
    | .ok (t, r) => (blockRun es t).map (fun (u, rs) => (u, r.toList ++ rs))

end Sys2Proof.Machine
end

