-- ==== Sys2Proof/Machine/Dispatch.lean ====
section
/-! DEFINITION. The dispatch: one arm per command of 30_encoding.md R42. -/
namespace Sys2Proof.Machine

/-- The effect of a decoded command. -/
def exec (i : Instr) (s : State) : Host.Outcome State Fault Refusal :=
  match i with
  | .crcInit => Sys2Proof.Machine.execCrcInit s
  | .crcUpd b => Sys2Proof.Machine.execCrcUpd b s
  | .crcGet => Sys2Proof.Machine.execCrcGet s
  | .decInit len => Sys2Proof.Machine.execDecInit len s
  | .decChr c => Sys2Proof.Machine.execDecChr c s
  | .decGet => Sys2Proof.Machine.execDecGet s

end Sys2Proof.Machine
end

