-- ==== Sys2Proof/Machine/Present.lean ====
section
/-! DEFINITION. One step's cause (60_exceptions.md R92): what the machine does with the event the host presents, or
with none. Step.lean only calls this. -/
namespace Sys2Proof.Machine

/-- A command word decodes to a command, which is executed, or is refused by name (30_encoding.md R45, R47). -/
def execWord (w : CmdWord) (s : State) : Host.Outcome State Fault Refusal :=
  match commandOf w with
  | .ok i => exec i s
  | .error r => .refused r

/-- One event: a command word, or a reset; where both come in the same step "reset wins and the command is lost"
(60_exceptions.md R92, 70_reset_and_hazards.md R106). -/
def execEvent (e : HostEvent) (s : State) : Host.Outcome State Fault Refusal :=
  match e with
  | .command w => execWord w s
  | .reset => .next s.applyReset
  | .resetWithCommand _ => .next s.applyReset

/-- The step: the next event is taken off the input and has its effect; with none presented the state holds. -/
def stepInput (s : State) : Host.Outcome State Fault Refusal :=
  match s.input with
  | [] => .next s.idle
  | e :: rest => execEvent e (s.withInput rest)

/-- A command word given as a number, presented before everything else the host presents (log entry 12). -/
def presentWord (s : State) (w : Nat) : State :=
  s.withInput (.command (BitVec.ofNat 12 w) :: s.input)

end Sys2Proof.Machine
end

