-- ==== Sys2Proof/Machine/Step.lean ====
section
/-! DEFINITION. The step function of 00_scope.md R8 in the form of the host's interface, which takes no argument: over
the block and, beside it, the host's command stream (`blockStep` is the rule's own form). -/
namespace Sys2Proof.Machine

/-- One step: next state, or a refusal; never a fault (60_exceptions.md R93). -/
def step (s : State) : Host.Outcome State Fault Refusal := stepInput s

/-- `s` with the command word `w` presented for the very next step. The block does not fetch (10_state.md R15): the
host presents each word, so this puts the word at the front of the stream and changes nothing else (log entry 12).
A command word has 12 bits; `nbits` counts them in whole bytes and the bits above the twelfth do not exist. -/
def State.withFetchWord (s : State) (_nbits w : Nat) : State := presentWord s w

end Sys2Proof.Machine
end

