-- ==== Sys2Proof/Machine/Assembler.lean ====
section
/-! DEFINITION. The assembler syntax of 30_encoding.md R49, host-side notation: from the text of one line to a command
word. What R49 leaves open of the text (which blanks separate, blank lines, letters of hexadecimal digits) is log entry
13. -/
namespace Sys2Proof.Machine

/-- Why a line does not assemble. -/
inductive AsmError where
  /-- the first word is none of the six mnemonics -/
  | unknownMnemonic
  /-- an operand that is in none of the three spellings -/
  | badOperand
  /-- more on the line than one operand -/
  | trailingText
  /-- an operand missing, not allowed, or outside `0 .. 255` (`AsmCommand.wellFormed`) -/
  | illFormed
deriving DecidableEq, Repr

/-- The mnemonic of a word, "written in capitals with a dot" (30_encoding.md R49). -/
def mnemonicOf (word : List Char) : Option Mnemonic :=
  if word = "CRC.INIT".toList then some .crcInit
  else if word = "CRC.UPD".toList then some .crcUpd
  else if word = "CRC.GET".toList then some .crcGet
  else if word = "DEC.INIT".toList then some .decInit
  else if word = "DEC.CHR".toList then some .decChr
  else if word = "DEC.GET".toList then some .decGet
  else none

/-- A blank between the parts of a line. -/
def isBlank (c : Char) : Bool := c == ' ' || c == '\t'

/-- Nothing more before the end of the line: blanks, then nothing or a comment from `;`. -/
def endsHere (text : List Char) : Bool :=
  match text.dropWhile isBlank with
  | [] => true
  | c :: _ => c == ';'

/-- The value of one digit in a base up to 16. -/
def digitInBase (base : Nat) (c : Char) : Option Nat :=
  let n := c.toNat
  let d :=
    if 48 ≤ n && n ≤ 57 then n - 48
    else if 65 ≤ n && n ≤ 70 then n - 55
    else if 97 ≤ n && n ≤ 102 then n - 87
    else 16
  if d < base then some d else none

/-- The number a non-empty list of digits spells. -/
def numberInBase (base : Nat) (digits : List Char) : Option Nat :=
  if digits.isEmpty then none
  else digits.foldl (fun m c => m.bind fun n => (digitInBase base c).map (n * base + ·)) (some 0)

/-- A number in one of the two spellings, decimal `44` or hexadecimal `0x2C` (30_encoding.md R49). -/
def numberOf (token : List Char) : Option Nat :=
  match token with
  | '0' :: 'x' :: digits => numberInBase 16 digits
  | digits => numberInBase 10 digits

/-- An operand at the head of the text and what follows it: a character in single quotes "standing for its ASCII code,
with the two escapes", else a number (30_encoding.md R49). -/
def operandOf (text : List Char) : Option (Nat × List Char) :=
  match text with
  | '\'' :: '\\' :: 'n' :: '\'' :: rest => some (0x0A, rest)
  | '\'' :: '\\' :: 'r' :: '\'' :: rest => some (0x0D, rest)
  | '\'' :: c :: '\'' :: rest => if c.toNat < 128 then some (c.toNat, rest) else none
  | _ =>
    let ends := fun c => isBlank c || c == ';'
    (numberOf (text.takeWhile (!ends ·))).map (·, text.dropWhile (!ends ·))

/-- One line: "a mnemonic, then at most one operand, then an optional comment" (30_encoding.md R49); none for a line with
no command on it. -/
def readLine (line : List Char) : Except AsmError (Option AsmCommand) :=
  let text := line.dropWhile isBlank
  if endsHere text then .ok none
  else
    let ends := fun c => isBlank c || c == ';'
    match mnemonicOf (text.takeWhile (!ends ·)) with
    | none => .error .unknownMnemonic
    | some m =>
      let rest := (text.dropWhile (!ends ·)).dropWhile isBlank
      if endsHere rest then .ok (some ⟨m, none⟩)
      else
        match operandOf rest with
        | none => .error .badOperand
        | some (v, after) => if endsHere after then .ok (some ⟨m, some v⟩) else .error .trailingText

/-- The assembled word, `(op << 8) | operand`, or `op << 8` when there is no operand (30_encoding.md R49). -/
def assemble (a : AsmCommand) : Except AsmError CmdWord :=
  if a.wellFormed then .ok (wordOf a.mnemonic.op (BitVec.ofNat 8 (a.operand.getD 0)))
  else .error .illFormed

/-- One line of text to its word. -/
def assembleLine (line : List Char) : Except AsmError (Option CmdWord) :=
  match readLine line with
  | .error e => .error e
  | .ok none => .ok none
  | .ok (some a) => (assemble a).map some

/-- The line of assembly that spells a command. -/
def asmOf (i : Instr) : AsmCommand :=
  ⟨i.mnemonic, if i.mnemonic.takesOperand then some i.arg.toNat else none⟩

end Sys2Proof.Machine
end

