-- ==== Sys2Proof/Machine/Sequences.lean ====
section
/-! DEFINITION. Command sequences as the host issues them (20_memory.md R35), and what the host reads off one: the
bytes it feeds to each unit (20_memory.md R25) and the results it is given, in order. -/
namespace Sys2Proof.Machine

/-- The commands of a list, one after another in order (20_memory.md R35). -/
def runCommands : List Instr → State → Host.Outcome State Fault Refusal
  | [], s => .next s
  | i :: is, s =>
    match exec i s with
    | .next t => runCommands is t
    | .fault r => .fault r
    | .refused r => .refused r

/-- The results the commands of a list yield, in order; a command that yields none adds none (30_encoding.md R41). -/
def resultsOf : List Instr → State → List Result
  | [], _ => []
  | i :: is, s =>
    match exec i s with
    | .next t => t.result.toList ++ resultsOf is t
    | .fault _ => []
    | .refused _ => []

/-- The bytes fed to unit CRC by a list of commands, in order (20_memory.md R25: the `arg` of each CRC.UPD). -/
def bytesFed : List Instr → List Byte
  | [] => []
  | .crcUpd b :: is => b :: bytesFed is
  | .crcInit :: is => bytesFed is
  | .crcGet :: is => bytesFed is
  | .decInit _ :: is => bytesFed is
  | .decChr _ :: is => bytesFed is
  | .decGet :: is => bytesFed is

/-- The characters fed to unit DEC by a list of commands, in order (20_memory.md R25: the `arg` of each DEC.CHR). -/
def charsFed : List Instr → List Byte
  | [] => []
  | .decChr c :: is => c :: charsFed is
  | .crcInit :: is => charsFed is
  | .crcUpd _ :: is => charsFed is
  | .crcGet :: is => charsFed is
  | .decInit _ :: is => charsFed is
  | .decGet :: is => charsFed is

/-- The host presents the canonical words of a list of commands, then whatever it presented before. -/
def State.presenting (s : State) (is : List Instr) : State :=
  s.withInput (is.map (fun i => HostEvent.command (encode i)) ++ s.input)

end Sys2Proof.Machine
end

