-- ==== Sys2Proof/Machine/Macros.lean ====
section
/-! DEFINITION. The host-side macros of 30_encoding.md R50 and R51, which compute the source's two functions through the
block's commands, with a byte buffer or a string literal as the operand. `buf` is the host's own buffer; the block reads
nothing from it (00_scope.md R7). -/
namespace Sys2Proof.Machine

/-- Why a macro does not expand. -/
inductive MacroError where
  /-- `length` above 255: "the macro is refused for it" (30_encoding.md R51) -/
  | lengthOver255
  /-- the macro reads past the end of the host's buffer: "the host's fault to avoid, not the block's"
  (70_reset_and_hazards.md R113); log entry 14 -/
  | pastBuffer
  /-- the operand is no string literal (30_encoding.md R50); log entry 21 -/
  | badLiteral
  /-- a line that is not the macro `CRC16` with one operand; log entry 21 -/
  | badLine
deriving DecidableEq, Repr

/-- Macro `CRC16 buf, count` (30_encoding.md R50). -/
def crc16Macro (buf : List Byte) (count : Nat) : Except MacroError (List Instr) :=
  if buf.length < count then .error .pastBuffer
  else .ok (.crcInit :: (buf.take count).map .crcUpd ++ [.crcGet])

/-- The expansion shared by `DECODE` and `DECODE+1`: DEC.INIT with the length, a number of characters, DEC.GET. -/
def decodeExpansion (buf : List Byte) (length chars : Nat) : Except MacroError (List Instr) :=
  if !macroLengthWellFormed length then .error .lengthOver255
  else if buf.length < chars then .error .pastBuffer
  else .ok (.decInit (BitVec.ofNat 8 length) :: (buf.take chars).map .decChr ++ [.decGet])

/-- Macro `DECODE buf, length` (30_encoding.md R51). -/
def decodeMacro (buf : List Byte) (length : Nat) : Except MacroError (List Instr) :=
  decodeExpansion buf length length

/-- The variant `DECODE+1 buf, length`: one more DEC.CHR before DEC.GET (30_encoding.md R51, 20_memory.md R39). -/
def decodePlusOneMacro (buf : List Byte) (length : Nat) : Except MacroError (List Instr) :=
  decodeExpansion buf length (length + 1)

/-- The double quote around a string literal. -/
def doubleQuote : Char := Char.ofNat 0x22

/-- The bytes of a string, in order, each character's ASCII code (30_encoding.md R50, and R49 for the code of a
character); none where a character is outside ASCII (DESIGN CHOICE, log entry 21). -/
def literalBytes : List Char → Option (List Byte)
  | [] => some []
  | c :: cs => if c.toNat < 128 then (literalBytes cs).map (BitVec.ofNat 8 c.toNat :: ·) else none

/-- A string literal at the head of the text, its characters between the quotes, and what follows it. No escapes: a
backslash is a character like any other (DESIGN CHOICE, log entry 21). -/
def literalAtHead : List Char → Option (List Char × List Char)
  | [] => none
  | c :: cs =>
    if c == doubleQuote then
      match cs.dropWhile (· != doubleQuote) with
      | [] => none
      | _ :: rest => some (cs.takeWhile (· != doubleQuote), rest)
    else none

/-- "A string literal may stand for the buffer and its length" (30_encoding.md R50): the buffer and the count that the
literal, written with its quotes, stands for. -/
def literalOperand (text : List Char) : Option (List Byte × Nat) :=
  match literalAtHead text with
  | none => none
  | some (chars, rest) => if endsHere rest then (literalBytes chars).map (fun bytes => (bytes, bytes.length)) else none

/-- Macro `CRC16` with a string literal for the buffer and its length (30_encoding.md R50). -/
def crc16LiteralMacro (literal : List Char) : Except MacroError (List Instr) :=
  match literalOperand literal with
  | none => .error .badLiteral
  | some (buf, count) => crc16Macro buf count

/-- A whole line `CRC16 "5,10,42,"` (30_encoding.md R50, in the line syntax of R49). -/
def crc16LiteralLine (line : List Char) : Except MacroError (List Instr) :=
  let text := line.dropWhile isBlank
  if text.takeWhile (!isBlank ·) = "CRC16".toList then
    crc16LiteralMacro ((text.dropWhile (!isBlank ·)).dropWhile isBlank)
  else .error .badLine

/-- Macro `DECODE` with a string literal for the buffer and the length beside it, as 95_test_vectors.md P2 writes
`DECODE "-126", 4` (30_encoding.md R51). -/
def decodeLiteralMacro (literal : List Char) (length : Nat) : Except MacroError (List Instr) :=
  match literalOperand literal with
  | none => .error .badLiteral
  | some (buf, _) => decodeMacro buf length

end Sys2Proof.Machine
end

