-- ==== Sys2Proof/Machine/Reference.lean ====
section
/-! DEFINITION. The host's reference function `encode_decimal` (41_decimal.md R80), which "is not hardware" and "is
stated so that the round-trip law has a meaning", and the number a digit string spells (R78). -/
namespace Sys2Proof.Machine

/-- The ASCII code of a digit value. -/
def digitChar (d : Nat) : Byte := Config.digitLo + BitVec.ofNat 8 d

/-- The decimal digits of a number, most significant first, no leading zeros; the first argument bounds how many more
than one there are. -/
def digitsUpTo : Nat → Nat → List Byte
  | 0, n => [digitChar n]
  | k + 1, n =>
    if n < Config.decRadix then [digitChar n]
    else digitsUpTo k (n / Config.decRadix) ++ [digitChar (n % Config.decRadix)]

/-- The standard decimal rendering of a magnitude below 10^10, which covers `0 .. 2^32 - 1` (41_decimal.md R80). -/
def renderMagnitude (n : Nat) : List Byte := digitsUpTo 9 n

/-- `encode_decimal : i32 -> text` (41_decimal.md R80), the i32 as its 32-bit pattern: `-` before the digits of `-v`
computed as a mathematical integer where `v < 0`. -/
def encodeDecimal (v : DecWord) : List Byte :=
  if v.toInt < 0 then Config.minus :: renderMagnitude v.toInt.natAbs else renderMagnitude v.toInt.natAbs

/-- The natural number `V` a list of digits spells (41_decimal.md R78): exact, no wrap. -/
def spelledNumber (digits : List Byte) : Nat :=
  digits.foldl (fun m c => m * Config.decRadix + digitValue c) 0

/-- The two's complement pattern of a CRC read as an `i16`, widened to 32 bits: the number whose signed spelling is
`encode_decimal(s(p))` (41_decimal.md R86). -/
def signedSpelling (p : CrcWord) : List Byte := encodeDecimal (p.signExtend 32)

/-- The unsigned spelling `encode_decimal(u(p))` (41_decimal.md R86). -/
def unsignedSpelling (p : CrcWord) : List Byte := encodeDecimal (p.setWidth 32)

end Sys2Proof.Machine
end

