-- ==== Sys2Proof/Machine/Sentence.lean ====
section
/-! DEFINITION. Context (00_scope.md R3): what the source's host feeds to the block for one sentence. "They are normative
for a model of that host, and informative for a model of the block alone" (20_memory.md section 7). The framer itself
(preamble, structural validity, comparison, error handling) is out of scope (00_scope.md R3). -/
namespace Sys2Proof.Machine

/-- The delimiter, written `,` in every wire example (00_scope.md R9). -/
def delimiter : Byte := 0x2C#8

/-- The terminator, newline (00_scope.md R9). -/
def terminator : Byte := 0x0A#8

/-- The carriage return, which the framer discards (20_memory.md R33). -/
def carriageReturn : Byte := 0x0D#8

/-- The framer's line buffer: the characters received with every carriage return discarded (20_memory.md R33). -/
def lineBuffer (received : List Byte) : List Byte := received.filter (· != carriageReturn)

/-- The bytes up to and including the `n`-th delimiter, none where there are fewer delimiters. -/
def throughDelimiter : Nat → List Byte → Option (List Byte)
  | 0, _ => some []
  | _ + 1, [] => none
  | n + 1, c :: cs =>
    (throughDelimiter (if c == delimiter then n else n + 1) cs).map (c :: ·)

/-- The CRC range of a line: "the first three fields with their three delimiters, the third delimiter included"
(20_memory.md R33), none for a line with fewer than three delimiters, which has no range (log entry 18). It counts
delimiters in the whole text: DESIGN CHOICE, log entry 18, that where a terminator comes before the third delimiter and
more text follows, the count goes on past the terminator and the range may hold it, though `sentenceFields` stops there.
R33 speaks of one line only, whose terminator is last. -/
def crcRange (line : List Byte) : Option (List Byte) := throughDelimiter 3 line

/-- The characters of a line before its terminator, none where the line has no terminator (log entry 18). -/
def beforeTerminator : List Byte → Option (List Byte)
  | [] => none
  | c :: cs => if c == terminator then some [] else (beforeTerminator cs).map (c :: ·)

/-- Text cut at each delimiter; the delimiters are in no piece. -/
def cutAtDelimiters : List Byte → List (List Byte)
  | [] => [[]]
  | c :: cs =>
    if c == delimiter then [] :: cutAtDelimiters cs
    else
      match cutAtDelimiters cs with
      | [] => [[c]]
      | f :: fs => (c :: f) :: fs

/-- The fields of a line in order, each passed to unit DEC with its length (20_memory.md R34). DESIGN CHOICE, log entry
18: text without a terminator has no fields, and text after the first terminator is left out. -/
def sentenceFields (line : List Byte) : Option (List (List Byte)) :=
  (beforeTerminator line).map cutAtDelimiters

end Sys2Proof.Machine
end

