-- ==== Sys2Proof/Safety.lean ====
section
/-! DEFINITION. What claims speak of: the invariants of every reachable state (10_state.md R23), the host's one duty
whose breach leaves no defined state (70_reset_and_hazards.md R116), and the frames of the two units (10_state.md R20). -/
namespace Sys2Proof.Machine

/-- The invariants of 10_state.md R23: (a) FIRST = 1 implies ACC = 0 and NEG = 0; (b) NEG = 1 implies FIRST = 0. -/
def State.Inv (s : State) : Prop :=
  (s.first = true → s.acc = 0#32 ∧ s.neg = false) ∧ (s.neg = true → s.first = false)

/-- An event that breaks no duty of the host: it is not a reserved word presented as a command
(70_reset_and_hazards.md R116). A word lost to a reset is not executed (R106), so it may be any:
that this goes for a reserved word too is the model's reading, log entry 5 (DEDUCED). -/
def HostEvent.defined : HostEvent → Bool
  | .command w => !isReserved w
  | .reset => true
  | .resetWithCommand _ => true

/-- Everything the host has yet to present is defined. -/
def State.inputDefined (s : State) : Bool := s.input.all HostEvent.defined

/-- Two states with the same register contents (10_state.md R19: "two states equal in those five registers"). -/
def State.sameRegisters (s t : State) : Prop :=
  s.crc = t.crc ∧ s.acc = t.acc ∧ s.neg = t.neg ∧ s.rem = t.rem ∧ s.first = t.first

/-- Two states with the same contents of unit DEC's registers. -/
def State.sameDec (s t : State) : Prop :=
  s.acc = t.acc ∧ s.neg = t.neg ∧ s.rem = t.rem ∧ s.first = t.first

/-- The event the host presents next asks for a reset, alone or beside a command. -/
def State.resetRequested (s : State) : Prop :=
  ∃ rest, s.input = .reset :: rest ∨ ∃ w, s.input = .resetWithCommand w :: rest

/-- The event the host presents next is a command word that decodes to `i`. -/
def State.nextCommandIs (s : State) (i : Instr) : Prop :=
  ∃ w rest, s.input = .command w :: rest ∧ decode w = .ok i

/-- A state some run from reset comes to: the host presents some events, and `n` steps answer that state. -/
def Reachable (t : State) : Prop :=
  ∃ (events : List HostEvent) (n : Nat),
    Host.Core.run Sys2Proof.core n (State.reset.withInput events) = .next t

end Sys2Proof.Machine
end

