-- ==== Sys2Proof/Certificates/Slice0/Obligations.lean ====
section
/-! DEFINITION. The statements for the provers, in the order of the spec's files. -/
open Sys2Proof Sys2Proof.Machine

/-! ## Scope, state, reset -/

/-- Each of the six commands completes in every state and for every operand, with one next state and at most one
result, and consumes nothing the host has yet to present (60_exceptions.md R90, 00_scope.md R8, 30_encoding.md R41).
-/
def Obligations.EveryCommandCompletesInEveryState : Prop :=
  ∀ (i : Instr) (s : State), ∃ t, exec i s = .next t ∧ t.input = s.input ∧
    ((∃ p, t.result = some (.crc16 p)) ↔ i = .crcGet) ∧ ((∃ p, t.result = some (.dec32 p)) ↔ i = .decGet) ∧
    (t.result = none ↔ i ≠ .crcGet ∧ i ≠ .decGet)

/-- The "written by" column of 10_state.md R10, for a whole step: a register changes only by a reset or by a command
that the column names (R11, R12, R13, R14 say under which condition). That a step with nothing presented changes none
is log entry 3 (DEDUCED). -/
def Obligations.StepChangesRegisterOnlyByItsWriters : Prop :=
  ∀ s t : State, step s = .next t →
    (t.crc ≠ s.crc → s.resetRequested ∨ s.nextCommandIs .crcInit ∨ ∃ b, s.nextCommandIs (.crcUpd b)) ∧
    (t.acc ≠ s.acc → s.resetRequested ∨ (∃ len, s.nextCommandIs (.decInit len)) ∨
      ∃ c, s.nextCommandIs (.decChr c) ∧ 0x30 ≤ c.toNat ∧ c.toNat ≤ 0x39 ∧ s.rem ≠ 0#8) ∧
    (t.neg ≠ s.neg → s.resetRequested ∨ (∃ len, s.nextCommandIs (.decInit len)) ∨
      s.nextCommandIs (.decChr 0x2D#8) ∧ s.rem ≠ 0#8 ∧ s.first = true) ∧
    (t.rem ≠ s.rem → s.resetRequested ∨ (∃ len, s.nextCommandIs (.decInit len)) ∨
      ∃ c, s.nextCommandIs (.decChr c) ∧ s.rem ≠ 0#8) ∧
    (t.first ≠ s.first → s.resetRequested ∨ (∃ len, s.nextCommandIs (.decInit len)) ∨
      ∃ c, s.nextCommandIs (.decChr c) ∧ s.rem ≠ 0#8)

/-- REM (10_state.md R13): loaded by DEC.INIT, decremented by one by every DEC.CHR issued while it is not zero, never
wrapping, written by nothing else; so after `DEC.INIT len` it is `len` less the characters scanned, and never below 0.
-/
def Obligations.RemCountsCharactersLeftAndNeverWraps : Prop :=
  (∀ (i : Instr) (s : State), ∃ t, exec i s = .next t ∧
    ((∃ len, i = .decInit len ∧ t.rem = len) ∨ (∃ c, i = .decChr c ∧ t.rem.toNat = s.rem.toNat - 1) ∨
      ((∀ len, i ≠ .decInit len) ∧ (∀ c, i ≠ .decChr c) ∧ t.rem = s.rem))) ∧
  (∀ (c : Byte) (s : State), s.rem = 0#8 → exec (.decChr c) s = .next { s with result := none }) ∧
  (∀ (len : Byte) (is : List Instr) (s : State), (∀ l, .decInit l ∉ is) →
    ∃ t, runCommands (.decInit len :: is) s = .next t ∧ t.rem.toNat = len.toNat - (charsFed is).length)

/-- The two flags, command by command (10_state.md R14): what sets each, what clears each, and that nothing else does.
-/
def Obligations.FlagsNegAndFirstChangeAsStated : Prop :=
  ∀ (i : Instr) (s : State), ∃ t, exec i s = .next t ∧
    ((s.neg = false ∧ t.neg = true) ↔ (s.neg = false ∧ i = .decChr 0x2D#8 ∧ s.rem ≠ 0#8 ∧ s.first = true)) ∧
    ((s.neg = true ∧ t.neg = false) ↔ (s.neg = true ∧ ∃ len, i = .decInit len)) ∧
    ((s.first = true ∧ t.first = false) ↔ (s.first = true ∧ s.rem ≠ 0#8 ∧ ∃ c, i = .decChr c)) ∧
    ((s.first = false ∧ t.first = true) ↔ (s.first = false ∧ ∃ len, i = .decInit len))

/-- No hidden state (10_state.md R19, marked "derived" by the spec): two states equal in the five registers give equal
results and equal next register contents for every command sequence. -/
def Obligations.RegistersDetermineEveryFutureResult : Prop :=
  ∀ (is : List Instr) (s s' : State), s.sameRegisters s' →
    ∃ t t', runCommands is s = .next t ∧ runCommands is s' = .next t' ∧ t.sameRegisters t' ∧
      resultsOf is s = resultsOf is s'

/-- Independence of the two units (10_state.md R20): a command writes only its own unit's registers, reads only them,
and any interleaving leaves each unit's registers and results what they would be without the other unit's commands. -/
def Obligations.UnitsAreIndependentUnderInterleaving : Prop :=
  (∀ (i : Instr) (s : State), ∃ t, exec i s = .next t ∧
    (i.unit = .crc → s.sameDec t) ∧ (i.unit = .dec → t.crc = s.crc)) ∧
  (∀ (i : Instr) (s s' : State), ∃ t t', exec i s = .next t ∧ exec i s' = .next t' ∧
    (i.unit = .crc → s.crc = s'.crc → t.crc = t'.crc ∧ t.result = t'.result) ∧
    (i.unit = .dec → s.sameDec s' → t.sameDec t' ∧ t.result = t'.result)) ∧
  (∀ (is : List Instr) (s : State), ∃ t u v, runCommands is s = .next t ∧
    runCommands (is.filter (·.unit == .crc)) s = .next u ∧ runCommands (is.filter (·.unit == .dec)) s = .next v ∧
    t.crc = u.crc ∧ t.sameDec v ∧
    (resultsOf is s).filter (·.unit == .crc) = resultsOf (is.filter (·.unit == .crc)) s ∧
    (resultsOf is s).filter (·.unit == .dec) = resultsOf (is.filter (·.unit == .dec)) s)

/-- The reset values, and what they amount to (10_state.md R21): the state of `CRC.INIT; DEC.INIT 0` from any state;
unit DEC ignores every character until a DEC.INIT with a non-zero length, and DEC.GET returns 0; CRC.INIT changes no
register. -/
def Obligations.ResetValuesAreThoseOfBothInits : Prop :=
  (State.reset.crc = 0x0000#16 ∧ State.reset.acc = 0x00000000#32 ∧ State.reset.neg = false ∧
    State.reset.rem = 0x00#8 ∧ State.reset.first = true) ∧
  (∀ s : State, ∃ t, runCommands [.crcInit, .decInit 0#8] s = .next t ∧ t.sameRegisters State.reset) ∧
  (∀ (is : List Instr) (s : State), s.sameRegisters State.reset → (∀ len, .decInit len ∈ is → len = 0#8) →
    ∃ t, runCommands (is ++ [.decGet]) s = .next t ∧ t.sameDec State.reset ∧ t.result = some (.dec32 0#32)) ∧
  (∀ s : State, s.sameRegisters State.reset → ∃ t, exec .crcInit s = .next t ∧ t.sameRegisters s)

/-- The invariants of 10_state.md R23 hold at reset. -/
def Obligations.ResetStateMeetsRegisterInvariants : Prop := State.reset.Inv

/-- Every step keeps the invariants (a) and (b) of 10_state.md R23, from every state that meets them.
That a step with nothing presented, or one with a reset beside any word, is among the steps is the model's reading,
log entries 3 and 5 (DEDUCED). -/
def Obligations.EveryStepKeepsRegisterInvariants : Prop :=
  ∀ s t : State, s.Inv → step s = .next t → t.Inv

/-- 10_state.md R23 (marked "derived" by the spec) of the reachable states: (a) and (b) hold; no constraint ties CRC
to the DEC registers; every value of CRC and of REM is reachable. The steps of a run are the model's, idle ones and resets beside any word among them
(log entries 3 and 5, DEDUCED). -/
def Obligations.ReachableStatesMeetInvariantsAndNothingTiesCrc : Prop :=
  (∀ t, Reachable t → (t.first = true → t.acc = 0#32 ∧ t.neg = false) ∧ (t.neg = true → t.first = false)) ∧
  (∀ t, Reachable t → ∀ v : CrcWord, ∃ u, Reachable u ∧ u.crc = v ∧ u.sameDec t) ∧
  (∀ (v : CrcWord) (r : Byte), ∃ t, Reachable t ∧ t.crc = v ∧ t.rem = r)

/-! ## Steps -/

/-- The reset event (70_reset_and_hazards.md R105): every register at its reset value whatever the state was, no
result; a run starts from that state. That the host's later events stay as they are (`input := rest`) is the model's
reading and not R105's: log entry 5, DEDUCED. -/
def Obligations.ResetEventAnswersResetState : Prop :=
  Sys2Proof.core.reset = State.reset ∧
  ∀ (s : State) (rest : List HostEvent), s.input = .reset :: rest →
    step s = .next { crc := 0x0000#16, acc := 0x00000000#32, neg := false, rem := 0x00#8, first := true,
                     input := rest, result := none }

/-- A reset requested together with a command word takes effect and the command is lost (60_exceptions.md R92,
70_reset_and_hazards.md R106), whatever the word: that this holds of a reserved word too, and that the
host's later events stay as they are, is the model's reading, log entry 5 (DEDUCED). -/
def Obligations.ResetBeatsSimultaneousCommand : Prop :=
  ∀ (s : State) (w : CmdWord) (rest : List HostEvent), s.input = .resetWithCommand w :: rest →
    step s = .next (State.reset.withInput rest)

/-- When the word presented next decodes to a command, the step is that command's effect, on the state with that word
taken off the stream (00_scope.md R8, 20_memory.md R35). -/
def Obligations.StepRunsTheDecodedCommand : Prop :=
  ∀ (s : State) (w : CmdWord) (i : Instr) (rest : List HostEvent),
    s.input = .command w :: rest → decode w = .ok i → step s = exec i (s.withInput rest)

/-- The word that `withFetchWord` presents is the one the very next step runs, on the state as it was. -/
def Obligations.PresentedTableWordRunsNext : Prop :=
  ∀ (s : State) (nbits w : Nat) (i : Instr), decodeTableWord nbits w = some i →
    step (s.withFetchWord nbits w) = exec i s

/-- Nothing presented: no register changes (70_reset_and_hazards.md R117, 30_encoding.md R48); that no result is
yielded either is the model's choice, log entry 3. -/
def Obligations.NothingPresentedHoldsTheState : Prop :=
  ∀ s : State, s.input = [] → step s = .next { s with result := none }

/-- The step refuses exactly the reserved words (30_encoding.md R47): the ten values of `op`, every `arg`; the refusal
stays for the rest of the run; every other step answers a next state, and none is a fault (60_exceptions.md R90, R93).
Two of the steps that are not refused are the model's reading: a reset beside a reserved word (log entry 5, DEDUCED
from 70_reset_and_hazards.md R106; unsafe) and a step with nothing presented (log entry 3, DEDUCED from R117). -/
def Obligations.StepRefusesExactlyReservedWords : Prop :=
  (∀ (s : State) (r : Refusal), step s = .refused r ↔
    ∃ w rest, s.input = .command w :: rest ∧ r = .reservedWord w ∧
      (w.toNat / 256 = 0x3 ∨ w.toNat / 256 = 0x7 ∨ 0x8 ≤ w.toNat / 256)) ∧
  (∀ (s : State) (r : Refusal) (n : Nat), step s = .refused r → Host.Core.run Sys2Proof.core (n + 1) s = .refused r) ∧
  (∀ s : State, (∃ t, step s = .next t) ∨ ∃ r, step s = .refused r)

/-- A host that presents no reserved word but beside a reset (70_reset_and_hazards.md R116) is never refused: any number
of steps completes, commands (60_exceptions.md R90), resets (70_reset_and_hazards.md R105, R106) and steps with nothing
presented (R117). Two clauses are the model's reading: `HostEvent.defined` admits a reserved word beside a reset, which
is lost to it (log entry 5, DEDUCED; unsafe), and a step with nothing presented completes (log entry 3, DEDUCED). -/
def Obligations.DefinedInputNeverStops : Prop :=
  ∀ (n : Nat) (s : State), s.inputDefined = true →
    ∃ t, Host.Core.run Sys2Proof.core n s = .next t ∧ t.inputDefined = true

/-- A run of the machine over the presented words of a list of commands is those commands one at a time in the order
the host presents them, with nothing between (20_memory.md R35). -/
def Obligations.PresentedCommandsRunInOrder : Prop :=
  ∀ (is : List Instr) (s : State),
    Host.Core.run Sys2Proof.core is.length (s.presenting is) = runCommands is s

/-- Reading has no side effect and initialising is idempotent (20_memory.md R31): CRC.INIT, CRC.GET, DEC.INIT, DEC.GET
issued twice in a row are as issued once, and so is DEC.CHR while REM is 0; the GETs change no register; CRC.UPD and
DEC.CHR are not idempotent. -/
def Obligations.GetsAndInitsAreIdempotent : Prop :=
  (∀ (i : Instr) (s : State), (∀ b, i ≠ .crcUpd b) → (∀ c, i = .decChr c → s.rem = 0#8) →
    ∃ t, exec i s = .next t ∧ exec i t = .next t) ∧
  (∀ (i : Instr) (s : State), i = .crcGet ∨ i = .decGet → ∃ t, exec i s = .next t ∧ s.sameRegisters t) ∧
  (∃ b s t, exec (.crcUpd b) s = .next t ∧ exec (.crcUpd b) t ≠ .next t) ∧
  (∃ c s t, exec (.decChr c) s = .next t ∧ exec (.decChr c) t ≠ .next t)

/-! ## The block and the machine -/

/-- The block's state is exactly the five registers, 16, 32, 1, 8 and 1 bits, 58 in all (10_state.md R10): their
contents side by side are a 58-bit pattern, a different one for different states, and every pattern is one. -/
def Obligations.BlockStateIsExactlyFiveRegisters : Prop :=
  Function.Bijective (fun b : BlockState =>
    (b.crc ++ b.acc ++ BitVec.ofBool b.neg ++ b.rem ++ BitVec.ofBool b.first : BitVec 58))

/-- The machine's step is the block's (00_scope.md R8, 10_state.md R22): with an event presented, the next block and the
result are `blockStep` of the block and the event, alone; the event is taken off the input, the earlier result is
neither read nor kept. The block's step is total on the six commands, each with its own effect, and refuses every other
word (R8, 30_encoding.md R47). That a reset leaves the later events, and that it beats a reserved word, is log entry 5
(DEDUCED). -/
def Obligations.MachineStepIsBlockStep : Prop :=
  (∀ (s : State) (e : HostEvent) (rest : List HostEvent), s.input = e :: rest →
    step s = match blockStep s.block e with
      | .ok (b, r) => .next { block := b, input := rest, result := r }
      | .error r => .refused r) ∧
  (∀ (i : Instr) (s : State), exec i s =
    .next { block := (blockExec i s.block).1, input := s.input, result := (blockExec i s.block).2 }) ∧
  (∀ (b : BlockState) (w : CmdWord) (i : Instr), decode w = .ok i → blockStep b (.command w) = .ok (blockExec i b)) ∧
  (∀ (b : BlockState) (e : HostEvent) (r : Refusal), blockStep b e = .error r ↔
    ∃ w, e = .command w ∧ r = .reservedWord w ∧
      (w.toNat / 256 = 0x3 ∨ w.toNat / 256 = 0x7 ∨ 0x8 ≤ w.toNat / 256))

/-- A run of the machine is the run of the block alone over the events presented (00_scope.md R8, 20_memory.md R35): it
is refused where the block's is, else it comes to the block's state with nothing left to present; so the block's state
and its results depend on the block's state before and the events, on nothing else (10_state.md R19, R22). Over the
words of a list of commands the block yields the list's results. The steps include a reset beside any word, and a reset
leaves the later events: log entry 5 (DEDUCED). -/
def Obligations.MachineRunIsBlockRun : Prop :=
  (∀ (events : List HostEvent) (s : State),
    match blockRun events s.block with
    | .ok (b, _) => ∃ t, Host.Core.run Sys2Proof.core events.length (s.withInput events) = .next t ∧
        t.block = b ∧ t.input = []
    | .error r => Host.Core.run Sys2Proof.core events.length (s.withInput events) = .refused r) ∧
  (∀ (is : List Instr) (s : State), ∃ t, runCommands is s = .next t ∧
    blockRun (is.map (fun i => HostEvent.command (encode i))) s.block = .ok (t.block, resultsOf is s))

/-! ## Encoding -/

/-- Decoding the canonical word of a command gives the command, with every operand at every value, whether STRICT_ARG
is on or off (30_encoding.md R40, R42, R44). -/
def Obligations.DecodeOfEncodeIsTheCommand : Prop :=
  ∀ (strict : Bool) (i : Instr), i.wellFormed = true → decodeWith strict (encode i) = .ok i

/-- The decoder reads the opcode map (30_encoding.md R42, R43): a word decodes to a command exactly where its `op` is
the command's and, if the command takes an operand, its `arg` is the operand as it stands. -/
def Obligations.DecoderReadsTheOpcodeMap : Prop :=
  ∀ (w : CmdWord) (i : Instr), decode w = .ok i ↔
    match i with
    | .crcInit => w.toNat / 256 = 0x0
    | .crcUpd b => w.toNat / 256 = 0x1 ∧ b.toNat = w.toNat % 256
    | .crcGet => w.toNat / 256 = 0x2
    | .decInit len => w.toNat / 256 = 0x4 ∧ len.toNat = w.toNat % 256
    | .decChr c => w.toNat / 256 = 0x5 ∧ c.toNat = w.toNat % 256
    | .decGet => w.toNat / 256 = 0x6

/-- The match-and-mask form of the decoder (30_encoding.md R45): every row has mask 0xF00 and match `op << 8`, a word
matches at most one row, the decoder's command is the matching row's, a word that matches none is reserved, and of the
4096 words 1536 decode and 2560 do not. -/
def Obligations.DecoderAgreesWithMatchAndMask : Prop :=
  (opcodeRows.map OpcodeRow.pattern = [0x000#12, 0x100#12, 0x200#12, 0x400#12, 0x500#12, 0x600#12]) ∧
  (∀ r ∈ opcodeRows, r.mask = 0xF00#12 ∧ r.pattern = r.mnemonic.op.setWidth 12 <<< 8) ∧
  (∀ (w : CmdWord), ∀ r ∈ opcodeRows, ∀ r' ∈ opcodeRows, r.matchesWord w = true → r'.matchesWord w = true → r = r') ∧
  (∀ (w : CmdWord), ∀ r ∈ opcodeRows, r.matchesWord w = true → ∃ i, decode w = .ok i ∧ i.mnemonic = r.mnemonic) ∧
  (∀ w : CmdWord, (∀ r ∈ opcodeRows, r.matchesWord w = false) ↔ decode w = .error .reserved) ∧
  ((List.range 4096).countP (fun n => (decode (BitVec.ofNat 12 n)).isOk) = 1536) ∧
  ((List.range 4096).countP (fun n => isReserved (BitVec.ofNat 12 n)) = 2560)

/-- The structure of `op` (30_encoding.md R46): bit 3 is 0 in every defined command, bit 2 selects the unit, bits 1:0
the function, 0 INIT, 1 absorb one byte, 2 GET, 3 reserved. -/
def Obligations.OpBitsSelectUnitAndFunction : Prop :=
  (∀ i : Instr, i.op.getLsbD 3 = false ∧ (i.op.getLsbD 2 = true ↔ i.unit = .dec) ∧
    (i.op.extractLsb' 0 2 = 0#2 ↔ i = .crcInit ∨ ∃ len, i = .decInit len) ∧
    (i.op.extractLsb' 0 2 = 1#2 ↔ (∃ b, i = .crcUpd b) ∨ ∃ c, i = .decChr c) ∧
    (i.op.extractLsb' 0 2 = 2#2 ↔ i = .crcGet ∨ i = .decGet)) ∧
  (∀ w : CmdWord, (opField w).extractLsb' 0 2 = 3#2 → decode w = .error .reserved)

/-- Operand-less commands ignore `arg` (30_encoding.md R44): all words with that `op` are the same command, the
assembler emits 0, and STRICT_ARG, false by default, accepts strictly fewer words and changes nothing else. -/
def Obligations.OperandlessCommandsIgnoreArg : Prop :=
  (∀ w : CmdWord, opField w = 0x0#4 → decode w = .ok .crcInit) ∧
  (∀ w : CmdWord, opField w = 0x2#4 → decode w = .ok .crcGet) ∧
  (∀ w : CmdWord, opField w = 0x6#4 → decode w = .ok .decGet) ∧
  (encode .crcInit = 0x000#12 ∧ encode .crcGet = 0x200#12 ∧ encode .decGet = 0x600#12) ∧
  (∀ w : CmdWord, decode w = decodeWith false w) ∧
  (∀ w : CmdWord, decodeWith true w = decodeWith false w ∨
    decodeWith true w = .error .argNotZero ∧ argField w ≠ 0#8 ∧
      (decodeWith false w = .ok .crcInit ∨ decodeWith false w = .ok .crcGet ∨ decodeWith false w = .ok .decGet)) ∧
  (∀ (w : CmdWord) (i : Instr), i.mnemonic.takesOperand = false → argField w ≠ 0#8 →
    decodeWith false w = .ok i → decodeWith true w = .error .argNotZero)

/-- Words written out from the opcode map and the assembler's examples (30_encoding.md R42, R49) decode to their
commands; a sanity statement. -/
def Obligations.SampleWordsDecode : Prop :=
  decode 0b000000000000#12 = .ok .crcInit ∧ decode 0b000100101100#12 = .ok (.crcUpd 0x2C#8) ∧
  decode 0b001000000000#12 = .ok .crcGet ∧ decode 0b010000000100#12 = .ok (.decInit 4#8) ∧
  decode 0b010100101101#12 = .ok (.decChr 0x2D#8) ∧ decode 0b011000000000#12 = .ok .decGet ∧
  decode 0b001100000000#12 = .error .reserved ∧ decode 0b011100000000#12 = .error .reserved ∧
  decode 0b100000000000#12 = .error .reserved

/-- The assembler (30_encoding.md R49): a line assembles exactly where its operand is as its mnemonic requires and in
`0 .. 255`; the word is `(op << 8) | operand`, or `op << 8` without one; it decodes to the command of that mnemonic;
and every command has a line that assembles to its canonical word. -/
def Obligations.AssemblerEmitsCanonicalWords : Prop :=
  (∀ a : AsmCommand, (∃ w, assemble a = .ok w) ↔
    (match a.operand with
     | none => a.mnemonic.takesOperand = false
     | some n => a.mnemonic.takesOperand = true ∧ n ≤ 255)) ∧
  (∀ (a : AsmCommand) (w : CmdWord), assemble a = .ok w →
    w.toNat = a.mnemonic.op.toNat * 256 + a.operand.getD 0 ∧ ∃ i, decode w = .ok i ∧ i.mnemonic = a.mnemonic) ∧
  (∀ i : Instr, assemble (asmOf i) = .ok (encode i))

/-- Macro `CRC16 buf, count` (30_encoding.md R50): `count + 2` commands, CRC.INIT first, the bytes in ascending order,
CRC.GET last, whose result is the CRC of the first `count` bytes. -/
def Obligations.Crc16MacroYieldsCrcOfBuffer : Prop :=
  ∀ (buf : List Byte) (count : Nat) (s : State), count ≤ buf.length →
    ∃ is t, crc16Macro buf count = .ok is ∧ is = .crcInit :: (buf.take count).map .crcUpd ++ [.crcGet] ∧
      is.length = count + 2 ∧ runCommands is s = .next t ∧
      t.result = some (.crc16 (crc16 buf count)) ∧ s.sameDec t

/-- Macros `DECODE` and `DECODE+1` (30_encoding.md R51): `length + 2` commands, one more in the variant, the last
one's result the value of the field, the same in both; refused for a length above 255. -/
def Obligations.DecodeMacrosYieldValueOfField : Prop :=
  (∀ (buf : List Byte) (length : Nat) (s : State), length ≤ 255 → length ≤ buf.length →
    ∃ is t, decodeMacro buf length = .ok is ∧
      is = .decInit (BitVec.ofNat 8 length) :: (buf.take length).map .decChr ++ [.decGet] ∧ is.length = length + 2 ∧
      runCommands is s = .next t ∧ t.result = some (.dec32 (decodeDecimal buf (BitVec.ofNat 8 length)))) ∧
  (∀ (buf : List Byte) (length : Nat) (s : State), length ≤ 255 → length < buf.length →
    ∃ is t, decodePlusOneMacro buf length = .ok is ∧
      is = .decInit (BitVec.ofNat 8 length) :: (buf.take (length + 1)).map .decChr ++ [.decGet] ∧ is.length = length + 3 ∧
      runCommands is s = .next t ∧ t.result = some (.dec32 (decodeDecimal buf (BitVec.ofNat 8 length)))) ∧
  (∀ (buf : List Byte) (length : Nat), 255 < length →
    decodeMacro buf length = .error .lengthOver255 ∧ decodePlusOneMacro buf length = .error .lengthOver255)

/-- A string literal stands for the buffer and its length (30_encoding.md R50): for every text of ASCII characters with
no double quote in it, in quotes, the macro is CRC.INIT, a CRC.UPD of each character's code in order, CRC.GET, and its
last result is the CRC of those codes; the rule's example is the macro over its 8 bytes, as a literal and as a whole
line; and `DECODE` over a literal is `DECODE` over its codes (95_test_vectors.md P2). Which texts a literal may hold is
the model's choice, log entry 21. -/
def Obligations.StringLiteralStandsForBufferAndLength : Prop :=
  (∀ (text : List Char) (s : State), (∀ c ∈ text, c.toNat < 128 ∧ c ≠ doubleQuote) →
    ∃ (bytes : List Byte) (t : State), bytes = text.map (fun c => BitVec.ofNat 8 c.toNat) ∧
      crc16LiteralMacro (doubleQuote :: text ++ [doubleQuote]) = .ok (.crcInit :: bytes.map .crcUpd ++ [.crcGet]) ∧
      runCommands (.crcInit :: bytes.map .crcUpd ++ [.crcGet]) s = .next t ∧
      t.result = some (.crc16 (crc16 bytes text.length))) ∧
  (∀ (text : List Char) (length : Nat), (∀ c ∈ text, c.toNat < 128 ∧ c ≠ doubleQuote) →
    decodeLiteralMacro (doubleQuote :: text ++ [doubleQuote]) length =
      decodeMacro (text.map (fun c => BitVec.ofNat 8 c.toNat)) length) ∧
  crc16LiteralMacro "\"5,10,42,\"".toList =
    crc16Macro [0x35#8, 0x2C#8, 0x31#8, 0x30#8, 0x2C#8, 0x34#8, 0x32#8, 0x2C#8] 8 ∧
  crc16LiteralLine "CRC16 \"5,10,42,\"".toList =
    crc16Macro [0x35#8, 0x2C#8, 0x31#8, 0x30#8, 0x2C#8, 0x34#8, 0x32#8, 0x2C#8] 8

/-! ## Unit CRC -/

/-- CRC.INIT (40_crc.md R59): CRC becomes 0x0000 in every state, nothing else changes, no result; twice is as once;
right after reset it changes nothing; every word with `op` 0x0 is this command, the canonical one 0x000. -/
def Obligations.CrcInitClearsAccumulator : Prop :=
  (∀ s : State, exec .crcInit s = .next { s with crc := 0x0000#16, result := none }) ∧
  (∀ s : State, runCommands [.crcInit, .crcInit] s = runCommands [.crcInit] s) ∧
  exec .crcInit State.reset = .next State.reset ∧
  (∀ w : CmdWord, w.toNat / 256 = 0x0 → decode w = .ok .crcInit) ∧ encode .crcInit = 0x000#12

/-- CRC.UPD b (40_crc.md R60): CRC becomes `crc_byte(CRC, b)`, nothing else changes, no result; the word is `0x100 |
b`; no limit on how many; the corner cases and the example of the rule. -/
def Obligations.CrcUpdAbsorbsOneByte : Prop :=
  (∀ (b : Byte) (s : State), exec (.crcUpd b) s = .next { s with crc := crcByte s.crc b, result := none }) ∧
  (∀ b : Byte, decode (0x100#12 ||| b.setWidth 12) = .ok (.crcUpd b)) ∧
  (∀ (bytes : List Byte) (s : State), ∃ t, runCommands (bytes.map .crcUpd) s = .next t ∧
    t.crc = bytes.foldl crcByte s.crc ∧ s.sameDec t) ∧
  (∀ b : Byte, Function.Bijective (crcByte · b)) ∧ (∀ v : CrcWord, Function.Injective (crcByte v)) ∧
  crcByte 0x0000#16 0x00#8 = 0x0000#16 ∧ crcByte 0x0000#16 0x35#8 = 0x66F6#16 ∧ crcByte 0x66F6#16 0x2C#8 = 0x1F8E#16

/-- CRC.GET (40_crc.md R61): the result is CRC as it stands, no register changes; every word with `op` 0x2 is this
command; its `i16` reading is negative exactly from 0x8000 on; right after CRC.INIT or reset it is 0x0000; the rule's
example. -/
def Obligations.CrcGetYieldsAccumulator : Prop :=
  (∀ s : State, exec .crcGet s = .next { s with result := some (.crc16 s.crc) }) ∧
  (∀ w : CmdWord, w.toNat / 256 = 0x2 → decode w = .ok .crcGet) ∧ encode .crcGet = 0x200#12 ∧
  (∀ p : CrcWord, (Result.crc16 p).signed = if 0x8000 ≤ p.toNat then (p.toNat : Int) - 65536 else p.toNat) ∧
  (∀ s : State, resultsOf [.crcInit, .crcGet] s = [.crc16 0x0000#16]) ∧
  resultsOf [.crcGet] State.reset = [.crc16 0x0000#16] ∧
  (∀ s : State, resultsOf (.crcInit :: [0x35#8, 0x2C#8, 0x31#8, 0x30#8, 0x2C#8, 0x34#8, 0x32#8, 0x2C#8].map .crcUpd ++
    [.crcGet]) s = [.crc16 0xB33D#16])

/-- One round (40_crc.md R56): the case form, the same bit by bit, and the rule's examples. -/
def Obligations.CrcRoundShiftsAndReducesBySetHighBit : Prop :=
  (∀ s : CrcWord, crcRound s = if s.getLsbD 15 = true then (s <<< 1) ^^^ 0x1021#16 else s <<< 1) ∧
  (∀ (s : CrcWord) (i : Nat), i < 16 → (crcRound s).getLsbD i =
    ((decide (0 < i) && s.getLsbD (i - 1)) ^^ (s.getLsbD 15 && (i == 0 || i == 5 || i == 12)))) ∧
  crcRound 0x8000#16 = 0x1021#16 ∧ crcRound 0x4100#16 = 0x8200#16 ∧ crcRound 0x8200#16 = 0x1421#16 ∧
  crcRound 0x0000#16 = 0x0000#16 ∧ crcRound 0xFFFF#16 = 0xEFDF#16

/-- One byte (40_crc.md R57): the byte into bits 15:8, then exactly 8 rounds, and the rule's values. -/
def Obligations.CrcByteXorsHighByteThenEightRounds : Prop :=
  (∀ (s : CrcWord) (b : Byte), ∃ t0 : CrcWord, t0.extractLsb' 8 8 = s.extractLsb' 8 8 ^^^ b ∧
    t0.extractLsb' 0 8 = s.extractLsb' 0 8 ∧
    crcByte s b = crcRound (crcRound (crcRound (crcRound (crcRound (crcRound (crcRound (crcRound t0)))))))) ∧
  [0, 1, 2, 3, 4, 5, 6, 7, 8].map (crcRounds · 0x4100#16) =
    [0x4100#16, 0x8200#16, 0x1421#16, 0x2842#16, 0x5084#16, 0xA108#16, 0x5231#16, 0xA462#16, 0x58E5#16] ∧
  [0, 1, 2, 3, 4, 5, 6, 7, 8].map (crcRounds · 0x8000#16) =
    [0x8000#16, 0x1021#16, 0x2042#16, 0x4084#16, 0x8108#16, 0x1231#16, 0x2462#16, 0x48C4#16, 0x9188#16] ∧
  crcByte 0x0000#16 0x41#8 = 0x58E5#16 ∧ crcByte 0x0000#16 0x80#8 = 0x9188#16 ∧ crcByte 0x0000#16 0x00#8 = 0x0000#16 ∧
  crcByte 0x0000#16 0x01#8 = 0x1021#16 ∧ crcByte 0x0000#16 0xFF#8 = 0x1EF0#16

/-- A range (40_crc.md R58): the left fold of `crc_byte` over the first `count` bytes in ascending order, from 0x0000,
with nothing done afterwards, and the rule's example with its `i16` reading. -/
def Obligations.Crc16FoldsBytesInAscendingOrder : Prop :=
  (∀ bytes : List Byte, crc16 bytes 0 = 0x0000#16) ∧
  (∀ (bytes : List Byte) (count : Nat) (h : count < bytes.length),
    crc16 bytes (count + 1) = crcByte (crc16 bytes count) bytes[count]) ∧
  crc16 [0x35#8, 0x2C#8, 0x31#8, 0x30#8, 0x2C#8, 0x34#8, 0x32#8, 0x2C#8] 8 = 0xB33D#16 ∧
  (0xB33D#16).toNat = 45885 ∧ (Result.crc16 0xB33D#16).signed = -19651

/-- The commands compute the function (40_crc.md R62, marked "derived" by the spec): after CRC.INIT, any commands
without another CRC.INIT (DEC commands and early CRC.GETs anywhere), then CRC.GET, the result is `crc16` of exactly
the bytes fed, and so is CRC. -/
def Obligations.CrcCommandsComputeCrc16 : Prop :=
  ∀ (is : List Instr) (s : State), .crcInit ∉ is →
    ∃ t, runCommands (.crcInit :: is ++ [.crcGet]) s = .next t ∧
      t.crc = crc16 (bytesFed is) (bytesFed is).length ∧
      t.result = some (.crc16 (crc16 (bytesFed is) (bytesFed is).length))

/-- Bijectivity and its consequences (40_crc.md R63 (a) to (g), which the spec marks "[derived: from rule R56, rule
R57, rule R58]"). -/
def Obligations.CrcUpdateIsBijectiveAndDetectsOneByte : Prop :=
  Function.Bijective crcRound ∧ (∀ s : CrcWord, (crcRound s).getLsbD 0 = s.getLsbD 15) ∧
  (∀ b : Byte, Function.Bijective (crcByte · b)) ∧
  (∀ s : CrcWord, Function.Injective (crcByte s)) ∧
  (∀ (front back : List Byte) (b b' : Byte), b ≠ b' →
    crc16 (front ++ b :: back) (front.length + 1 + back.length) ≠
      crc16 (front ++ b' :: back) (front.length + 1 + back.length)) ∧
  (∀ count : Nat, 3 ≤ count → ∃ as bs : List Byte, as.length = count ∧ bs.length = count ∧ as ≠ bs ∧
    crc16 as count = crc16 bs count) ∧
  (crc16 [0x61#8, 0x62#8] 2 = 0x74FF#16 ∧ crc16 [0x62#8, 0x61#8] 2 = 0x11CF#16) ∧
  (∀ a b a' b' : Byte, crc16 [a, b] 2 = crc16 [a', b'] 2 → a = a' ∧ b = b') ∧
  (∀ v : CrcWord, ∃ a b : Byte, crc16 [a, b] 2 = v)

/-- Zero initial value (40_crc.md R65, marked "derived" by the spec): the empty range gives 0, and leading zero bytes
leave the CRC unchanged. -/
def Obligations.LeadingZeroBytesLeaveCrcUnchanged : Prop :=
  (∀ bytes : List Byte, crc16 bytes 0 = 0x0000#16) ∧ crcByte 0x0000#16 0x00#8 = 0x0000#16 ∧
  (∀ (zeros count : Nat) (bytes : List Byte),
    crc16 (List.replicate zeros 0x00#8 ++ bytes) (zeros + count) = crc16 bytes count) ∧
  crc16 [0x41#8] 1 = 0x58E5#16

/-- Linearity (40_crc.md R66, marked "derived" by the spec), exact because the initial value is 0 and there is no
final XOR. -/
def Obligations.CrcIsLinear : Prop :=
  (∀ x y : CrcWord, crcRound (x ^^^ y) = crcRound x ^^^ crcRound y) ∧
  (∀ (s s' : CrcWord) (b b' : Byte), crcByte (s ^^^ s') (b ^^^ b') = crcByte s b ^^^ crcByte s' b') ∧
  (∀ as bs : List Byte, as.length = bs.length →
    crc16 (List.zipWith (· ^^^ ·) as bs) as.length = crc16 as as.length ^^^ crc16 bs bs.length)

/-- Table form (40_crc.md R67, marked "derived" by the spec), with the table's entries the rule lists. -/
def Obligations.CrcByteHasTableForm : Prop :=
  (∀ (s : CrcWord) (b : Byte),
    crcByte s b = (s <<< 8) ^^^ crcByte 0x0000#16 (s.extractLsb' 8 8 ^^^ b)) ∧
  ([0x00#8, 0x01#8, 0x02#8, 0x03#8, 0x04#8, 0x05#8, 0x06#8, 0x07#8, 0xFF#8].map (crcByte 0x0000#16) =
    [0x0000#16, 0x1021#16, 0x2042#16, 0x3063#16, 0x4084#16, 0x50A5#16, 0x60C6#16, 0x70E7#16, 0x1EF0#16])

/-- Residue (40_crc.md R68, marked "derived" by the spec): a list followed by its own CRC, high byte first, brings the
accumulator to 0x0000. -/
def Obligations.CrcOfMessageAndItsCrcIsZero : Prop :=
  ∀ m : List Byte,
    crc16 (m ++ [(crc16 m m.length).extractLsb' 8 8, (crc16 m m.length).extractLsb' 0 8]) (m.length + 2) = 0x0000#16

/-! ## Unit DEC -/

/-- DEC.INIT len (41_decimal.md R74): ACC 0, NEG 0, REM len, FIRST 1 in every state, nothing else changes, no result;
the word is `0x400 | len`; twice is as once; with `len` 0 every character is ignored and the result is 0. -/
def Obligations.DecInitStartsField : Prop :=
  (∀ (len : Byte) (s : State), exec (.decInit len) s =
    .next { s with acc := 0x00000000#32, neg := false, rem := len, first := true, result := none }) ∧
  (∀ len : Byte, decode (0x400#12 ||| len.setWidth 12) = .ok (.decInit len)) ∧
  (∀ (len : Byte) (s : State), runCommands [.decInit len, .decInit len] s = runCommands [.decInit len] s) ∧
  (∀ (chars : List Byte) (s : State),
    runCommands (.decInit 0#8 :: chars.map .decChr) s = runCommands [.decInit 0#8] s ∧
    resultsOf (.decInit 0#8 :: chars.map .decChr ++ [.decGet]) s = [.dec32 0#32])

/-- DEC.CHR c, all four cases of `dec_step` in their order (41_decimal.md R71), each with everything it leaves
unchanged; the word is `0x500 | c` (R75). -/
def Obligations.DecChrTakesTheFourCasesInOrder : Prop :=
  (∀ (c : Byte) (s : State), exec (.decChr c) s = .next (
    if s.rem = 0#8 then { s with result := none }
    else if s.first = true ∧ c = 0x2D#8 then
      { s with neg := true, rem := s.rem - 1#8, first := false, result := none }
    else if 0x30 ≤ c.toNat ∧ c.toNat ≤ 0x39 then
      { s with acc := BitVec.ofNat 32 ((s.acc.toNat * 10 + (c.toNat - 0x30)) % 2 ^ 32), rem := s.rem - 1#8,
               first := false, result := none }
    else { s with rem := s.rem - 1#8, first := false, result := none })) ∧
  (∀ c : Byte, decode (0x500#12 ||| c.setWidth 12) = .ok (.decChr c))

/-- DEC.GET (41_decimal.md R76, R72): in every state the result is ACC, or its two's complement negation if NEG is 1;
no register changes; every word with `op` 0x6 is this command; 0 right after DEC.INIT or reset; issued early, the
value of the characters so far as if the field had ended there; no negative zero; the rule's example. -/
def Obligations.DecGetYieldsSignedValue : Prop :=
  (∀ s : State, exec .decGet s = .next { s with result := some (.dec32 (if s.neg = true then ~~~s.acc + 1#32 else s.acc)) }) ∧
  (∀ (acc : DecWord) (neg : Bool), decValue acc neg = if neg = true then -acc else acc) ∧
  (∀ acc : DecWord, (decValue acc true).toNat = (2 ^ 32 - acc.toNat) % 2 ^ 32) ∧
  (∀ w : CmdWord, w.toNat / 256 = 0x6 → decode w = .ok .decGet) ∧ encode .decGet = 0x600#12 ∧
  (∀ (len : Byte) (s : State), resultsOf [.decInit len, .decGet] s = [.dec32 0#32]) ∧
  resultsOf [.decGet] State.reset = [.dec32 0#32] ∧
  (∀ (chars : List Byte) (len : Byte) (s : State), chars.length ≤ len.toNat →
    resultsOf (.decInit len :: chars.map .decChr ++ [.decGet]) s =
      [.dec32 (decodeDecimal chars (BitVec.ofNat 8 chars.length))]) ∧
  decodeDecimal [0x2D#8, 0x31#8, 0x32#8, 0x36#8] 4#8 = 0xFFFFFF82#32 ∧ (Result.dec32 0xFFFFFF82#32).signed = -126 ∧
  decodeDecimal [0x2D#8] 1#8 = 0#32 ∧ decValue 0#32 true = 0#32 ∧ decValue 0x80000000#32 true = 0x80000000#32

/-- Character classes (41_decimal.md R82): digit, minus, and other in every remaining case, with the characters the
rule lists as other, and the digit value in `0 .. 9`. -/
def Obligations.CharacterClassesAreAsStated : Prop :=
  (∀ c : Byte, charClass c =
    if 0x30 ≤ c.toNat ∧ c.toNat ≤ 0x39 then .digit else if c = 0x2D#8 then .minus else .other) ∧
  (∀ c : Byte, charClass c = .digit → digitValue c = c.toNat - 0x30 ∧ digitValue c ≤ 9) ∧
  (∀ c ∈ [0x2C#8, 0x0A#8, 0x0D#8, 0x20#8, 0x2B#8, 0x2E#8, 0x00#8], charClass c = .other) ∧
  (∀ c : Byte, 0x80 ≤ c.toNat → charClass c = .other) ∧
  (∀ c : Byte, (0x41 ≤ c.toNat ∧ c.toNat ≤ 0x5A) ∨ (0x61 ≤ c.toNat ∧ c.toNat ≤ 0x7A) → charClass c = .other)

/-- The field function without the bookkeeping registers (41_decimal.md R73): the sign from the character at index 0,
the magnitude the fold over the digits among the first `length` characters, later characters never read. -/
def Obligations.DecodeDecimalFoldsTheDigitsOfTheField : Prop :=
  ∀ (chars : List Byte) (length : Byte),
    decodeDecimal chars length =
      (let field := chars.take length.toNat
       let magnitude := (field.filter (fun c => decide (0x30 ≤ c.toNat ∧ c.toNat ≤ 0x39))).foldl
         (fun m c => (m * 10 + (c.toNat - 0x30)) % 2 ^ 32) 0
       if field.head? = some 0x2D#8 then -(BitVec.ofNat 32 magnitude) else BitVec.ofNat 32 magnitude)

/-- The commands compute the function (41_decimal.md R77, marked "derived" by the spec): after DEC.INIT, any commands
without another DEC.INIT (CRC commands and early DEC.GETs anywhere, characters beyond the field too), then DEC.GET,
the result is `decode_decimal` of the characters fed. -/
def Obligations.DecCommandsComputeDecodeDecimal : Prop :=
  ∀ (len : Byte) (is : List Instr) (s : State), (∀ l, .decInit l ∉ is) →
    ∃ t, runCommands (.decInit len :: is ++ [.decGet]) s = .next t ∧
      t.result = some (.dec32 (decodeDecimal (charsFed is) len))

/-- Length semantics (41_decimal.md R83 (a) to (f), marked "derived" by the spec). -/
def Obligations.FieldLengthAloneDelimitsTheField : Prop :=
  (∀ (chars more : List Byte) (length : Byte), chars.length = length.toNat →
    decodeDecimal (chars ++ more) length = decodeDecimal chars length) ∧
  (∀ (chars : List Byte) (length : Byte), chars.length ≤ length.toNat →
    decodeDecimal chars length = decodeDecimal chars (BitVec.ofNat 8 chars.length)) ∧
  (∀ chars : List Byte, decodeDecimal chars 0#8 = 0#32) ∧
  (decodeDecimal [0x31#8, 0x32#8] 1#8 = 1#32 ∧ decodeDecimal [0x31#8, 0x32#8, 0x33#8] 2#8 = 12#32) ∧
  (∀ (front back : List Byte) (c : Byte), front ≠ [] → isDigit c = false → front.length + 1 + back.length ≤ 255 →
    decodeDecimal (front ++ c :: back) (BitVec.ofNat 8 (front.length + 1 + back.length)) =
      decodeDecimal (front ++ back) (BitVec.ofNat 8 (front.length + back.length)))

/-- Width and wrap-around (41_decimal.md R78): the digit step as shifts and adds; a field of digits that spell `V`,
with or without a leading minus, gives `V` or `-V` modulo 2^32, exact as an `i32` exactly when it fits; at most 9
digits never wrap. -/
def Obligations.DecimalFieldWrapsModuloTwoToThe32 : Prop :=
  (∀ (acc : DecWord) (c : Byte), isDigit c = true →
    (accumulateDigit acc c).toNat = (acc.toNat * 10 + (c.toNat - 0x30)) % 2 ^ 32 ∧
    accumulateDigit acc c = (acc <<< 3) + (acc <<< 1) + BitVec.ofNat 32 (c.toNat - 0x30)) ∧
  (∀ digits : List Byte, (∀ c ∈ digits, isDigit c = true) → digits.length ≤ 255 →
    decodeDecimal digits (BitVec.ofNat 8 digits.length) = BitVec.ofNat 32 (spelledNumber digits) ∧
    ((decodeDecimal digits (BitVec.ofNat 8 digits.length)).toInt = (spelledNumber digits : Int) ↔
      spelledNumber digits < 2 ^ 31)) ∧
  (∀ digits : List Byte, (∀ c ∈ digits, isDigit c = true) → digits.length ≤ 254 →
    decodeDecimal (0x2D#8 :: digits) (BitVec.ofNat 8 (digits.length + 1)) = BitVec.ofInt 32 (-(spelledNumber digits : Int)) ∧
    ((decodeDecimal (0x2D#8 :: digits) (BitVec.ofNat 8 (digits.length + 1))).toInt = -(spelledNumber digits : Int) ↔
      spelledNumber digits ≤ 2 ^ 31)) ∧
  (∀ digits : List Byte, (∀ c ∈ digits, isDigit c = true) → digits.length ≤ 9 → spelledNumber digits ≤ 999999999)

/-- Negation at the corners (41_decimal.md R79, marked "derived" by the spec): the magnitudes that are their own
negation are 0 and 0x80000000; every other one is negated exactly in its `i32` reading; `-2147483649` wraps to
+2147483647. -/
def Obligations.NegationFixesOnlyZeroAndTheMinimum : Prop :=
  (∀ acc : DecWord, decValue acc true = acc ↔ acc = 0#32 ∨ acc = 0x80000000#32) ∧
  (∀ acc : DecWord, acc ≠ 0x80000000#32 → (decValue acc true).toInt = -acc.toInt) ∧
  (0x80000000#32).toInt = -2147483648 ∧ (decValue 0x80000001#32 true).toInt = 2147483647

/-- The reference encoder (41_decimal.md R80): standard decimal rendering of every `i32`, no leading zeros, negative
sign prefixed, 1 to 11 characters. -/
def Obligations.EncodeDecimalIsStandardRendering : Prop :=
  (∀ v : DecWord, 1 ≤ (encodeDecimal v).length ∧ (encodeDecimal v).length ≤ 11 ∧
    ∃ digits : List Byte, encodeDecimal v = (if v.toInt < 0 then 0x2D#8 :: digits else digits) ∧ digits ≠ [] ∧
      (∀ c ∈ digits, isDigit c = true) ∧ spelledNumber digits = v.toInt.natAbs ∧
      (digits.head? = some 0x30#8 → digits = [0x30#8])) ∧
  encodeDecimal 0#32 = [0x30#8] ∧ (encodeDecimal 0x80000000#32).length = 11

/-- The round-trip law (41_decimal.md R81, marked "derived" by the spec): decoding the rendering of every `i32`, with
the rendering's length, gives it back; the converse fails for `007`, `+5`, `-0` and `1a2`. -/
def Obligations.DecodeOfEncodedDecimalIsTheValue : Prop :=
  (∀ v : DecWord, (Result.dec32 (decodeDecimal (encodeDecimal v) (BitVec.ofNat 8 (encodeDecimal v).length))).signed = v.toInt) ∧
  (∀ t ∈ [[0x30#8, 0x30#8, 0x37#8], [0x2B#8, 0x35#8], [0x2D#8, 0x30#8], [0x31#8, 0x61#8, 0x32#8]],
    encodeDecimal (decodeDecimal t (BitVec.ofNat 8 t.length)) ≠ t)

/-- The two spellings of a CRC pattern (41_decimal.md R86, marked "derived" by the spec): the low 16 bits of the
decoded result are the pattern in both cases; the block itself narrows nothing. -/
def Obligations.BothSpellingsOfCrcDecodeToItsLow16Bits : Prop :=
  ∀ p : CrcWord,
    decodeDecimal (signedSpelling p) (BitVec.ofNat 8 (signedSpelling p).length) = p.signExtend 32 ∧
    decodeDecimal (unsignedSpelling p) (BitVec.ofNat 8 (unsignedSpelling p).length) = p.setWidth 32 ∧
    (p.signExtend 32).extractLsb' 0 16 = p ∧ (p.setWidth 32).extractLsb' 0 16 = p

/-! ## Context: one sentence -/

/-- The CRC range and the fields of a sentence (20_memory.md R33, R34), for every four fields that hold no delimiter,
no terminator and no carriage return: the range is the first three with their delimiters, the fields are the four. -/
def Obligations.SentenceRangeAndFieldsAreAsStated : Prop :=
  ∀ (command ident value checksum : List Byte),
    (∀ f ∈ [command, ident, value, checksum], ∀ c ∈ f, c ≠ 0x2C#8 ∧ c ≠ 0x0A#8 ∧ c ≠ 0x0D#8) →
    (let range := command ++ [0x2C#8] ++ ident ++ [0x2C#8] ++ value ++ [0x2C#8]
     let line := lineBuffer (range ++ checksum ++ [0x0D#8, 0x0A#8])
     line = range ++ checksum ++ [0x0A#8] ∧ crcRange line = some range ∧
     sentenceFields line = some [command, ident, value, checksum])
end

