-- ==== Sys2Proof/Laws/State.lean ====
section
/-! SUPPORT. One lemma per field per update of the block and of the machine, so that no later proof unfolds a record
update. -/
namespace Sys2Proof.Machine

variable (b b' : BlockState) (s : State) (v : CrcWord) (d : DecRegs) (r r' : Option Result)
  (es es' : List HostEvent) (o o' : BlockState × Option Result)

@[simp] theorem BlockState.setCrc_crc : (b.setCrc v).crc = v := rfl
@[simp] theorem BlockState.setCrc_acc : (b.setCrc v).acc = b.acc := rfl
@[simp] theorem BlockState.setCrc_neg : (b.setCrc v).neg = b.neg := rfl
@[simp] theorem BlockState.setCrc_rem : (b.setCrc v).rem = b.rem := rfl
@[simp] theorem BlockState.setCrc_first : (b.setCrc v).first = b.first := rfl
@[simp] theorem BlockState.setCrc_decRegs : (b.setCrc v).decRegs = b.decRegs := rfl
@[simp] theorem BlockState.setCrc_self : b.setCrc b.crc = b := rfl

@[simp] theorem BlockState.setDec_crc : (b.setDec d).crc = b.crc := rfl
@[simp] theorem BlockState.setDec_acc : (b.setDec d).acc = d.acc := rfl
@[simp] theorem BlockState.setDec_neg : (b.setDec d).neg = d.neg := rfl
@[simp] theorem BlockState.setDec_rem : (b.setDec d).rem = d.rem := rfl
@[simp] theorem BlockState.setDec_first : (b.setDec d).first = d.first := rfl
@[simp] theorem BlockState.setDec_decRegs : (b.setDec d).decRegs = d := rfl
@[simp] theorem BlockState.setDec_self : b.setDec b.decRegs = b := rfl

@[simp] theorem BlockState.decRegs_acc : b.decRegs.acc = b.acc := rfl
@[simp] theorem BlockState.decRegs_neg : b.decRegs.neg = b.neg := rfl
@[simp] theorem BlockState.decRegs_rem : b.decRegs.rem = b.rem := rfl
@[simp] theorem BlockState.decRegs_first : b.decRegs.first = b.first := rfl

@[simp] theorem BlockState.reset_crc : BlockState.reset.crc = 0#16 := rfl
@[simp] theorem BlockState.reset_acc : BlockState.reset.acc = 0#32 := rfl
@[simp] theorem BlockState.reset_neg : BlockState.reset.neg = false := rfl
@[simp] theorem BlockState.reset_rem : BlockState.reset.rem = 0#8 := rfl
@[simp] theorem BlockState.reset_first : BlockState.reset.first = true := rfl

@[simp] theorem State.withBlock_block : (s.withBlock b).block = b := rfl
@[simp] theorem State.withBlock_input : (s.withBlock b).input = s.input := rfl
@[simp] theorem State.withBlock_result : (s.withBlock b).result = s.result := rfl
@[simp] theorem State.withBlock_withBlock : (s.withBlock b).withBlock b' = s.withBlock b' := rfl
@[simp] theorem State.withBlock_self : s.withBlock s.block = s := rfl

@[simp] theorem State.yielding_block : (s.yielding r).block = s.block := rfl
@[simp] theorem State.yielding_input : (s.yielding r).input = s.input := rfl
@[simp] theorem State.yielding_result : (s.yielding r).result = r := rfl
@[simp] theorem State.yielding_yielding : (s.yielding r).yielding r' = s.yielding r' := rfl
@[simp] theorem State.yielding_self : s.yielding s.result = s := rfl

@[simp] theorem State.withInput_block : (s.withInput es).block = s.block := rfl
@[simp] theorem State.withInput_input : (s.withInput es).input = es := rfl
@[simp] theorem State.withInput_result : (s.withInput es).result = s.result := rfl
@[simp] theorem State.withInput_withInput : (s.withInput es).withInput es' = s.withInput es' := rfl
@[simp] theorem State.withInput_self : s.withInput s.input = s := rfl

@[simp] theorem State.after_block : (s.after o).block = o.1 := rfl
@[simp] theorem State.after_input : (s.after o).input = s.input := rfl
@[simp] theorem State.after_result : (s.after o).result = o.2 := rfl
@[simp] theorem State.after_after : (s.after o).after o' = s.after o' := rfl
@[simp] theorem State.after_withInput : (s.after o).withInput es = (s.withInput es).after o := rfl

@[simp] theorem State.reset_block : State.reset.block = BlockState.reset := rfl
@[simp] theorem State.reset_input : State.reset.input = [] := rfl
@[simp] theorem State.reset_result : State.reset.result = none := rfl

theorem State.applyReset_eq : s.applyReset = State.reset.withInput s.input := rfl
theorem State.idle_eq : s.idle = s.yielding none := rfl

end Sys2Proof.Machine
end

