-- ==== Sys2Proof/Laws/Block.lean ====
section
/-! SUPPORT. What the block does, said once: its commands, its step over a defined word, its run by the first event;
and that two machines with the same registers are two with the same block. -/
namespace Sys2Proof.Machine

/-- A command's whole effect: the block's own step, its state and its result handed to the machine, and nothing else. -/
theorem exec_eq (i : Instr) (s : State) : exec i s = .next (s.after (blockExec i s.block)) := by cases i <;> rfl

/-- `commandOf` answers a command exactly where the decoder does. -/
theorem commandOf_eq_ok_iff (w : CmdWord) (i : Instr) : commandOf w = .ok i ↔ decode w = .ok i := by
  unfold commandOf
  split <;> simp_all

theorem blockStep_of_decode {w : CmdWord} {i : Instr} (b : BlockState) (h : decode w = .ok i) :
    blockStep b (.command w) = .ok (blockExec i b) := by
  simp [blockStep, (commandOf_eq_ok_iff w i).mpr h, Except.map]

@[simp] theorem blockStep_reset (b : BlockState) : blockStep b .reset = .ok (BlockState.reset, none) := rfl
@[simp] theorem blockStep_resetWithCommand (b : BlockState) (w : CmdWord) :
    blockStep b (.resetWithCommand w) = .ok (BlockState.reset, none) := rfl

@[simp] theorem blockRun_nil (b : BlockState) : blockRun [] b = .ok (b, []) := rfl

theorem blockRun_cons_of_ok {b : BlockState} {e : HostEvent} {o : BlockState × Option Result} (es : List HostEvent)
    (h : blockStep b e = .ok o) :
    blockRun (e :: es) b = (blockRun es o.1).map (fun (u, rs) => (u, o.2.toList ++ rs)) := by simp [blockRun, h]

theorem blockRun_cons_of_error {b : BlockState} {e : HostEvent} {r : Refusal} (es : List HostEvent)
    (h : blockStep b e = .error r) : blockRun (e :: es) b = .error r := by simp [blockRun, h]

theorem State.sameRegisters_iff (s t : State) : s.sameRegisters t ↔ s.block = t.block := by
  rw [State.sameRegisters, BlockState.mk.injEq]

end Sys2Proof.Machine
end

