-- ==== Sys2Proof/Laws/Crc.lean ====
section
/-! SUPPORT. The small lemmas of unit CRC's functions. -/
namespace Sys2Proof.Machine

theorem crcRound_of_high_set {s : CrcWord} (h : s.getLsbD 15 = true) :
    crcRound s = (s <<< 1) ^^^ Config.crcPoly := by simp [crcRound, h]

theorem crcRound_of_high_clear {s : CrcWord} (h : s.getLsbD 15 = false) :
    crcRound s = s <<< 1 := by rw [crcRound, h]; rfl

@[simp] theorem crcRounds_zero (s : CrcWord) : crcRounds 0 s = s := rfl

theorem crcRounds_succ (n : Nat) (s : CrcWord) : crcRounds (n + 1) s = crcRounds n (crcRound s) := rfl

theorem crcRounds_add (m n : Nat) (s : CrcWord) : crcRounds (m + n) s = crcRounds n (crcRounds m s) := by
  induction m generalizing s with
  | zero => simp
  | succ m ih => rw [Nat.succ_add, crcRounds_succ, crcRounds_succ, ih]

theorem crcByte_eq_rounds (s : CrcWord) (b : Byte) : crcByte s b = crcRounds 8 (s ^^^ byteInHighHalf b) := rfl

@[simp] theorem crcFold_nil (s : CrcWord) : crcFold s [] = s := rfl

@[simp] theorem crcFold_cons (s : CrcWord) (b : Byte) (bs : List Byte) :
    crcFold s (b :: bs) = crcFold (crcByte s b) bs := rfl

@[simp] theorem crcFold_append (s : CrcWord) (as bs : List Byte) :
    crcFold s (as ++ bs) = crcFold (crcFold s as) bs := by simp [crcFold]

theorem crc16_eq_fold (bs : List Byte) (count : Nat) : crc16 bs count = crcFold 0#16 (bs.take count) := rfl

end Sys2Proof.Machine
end

