-- ==== Sys2Proof/Laws/Decimal.lean ====
section
/-! SUPPORT. The small lemmas of unit DEC's functions: the four cases of `dec_step`, one lemma each. -/
namespace Sys2Proof.Machine

theorem exhausted_iff (rem : Byte) : exhausted rem = true ↔ rem = 0#8 := by simp [exhausted]

theorem isMinus_iff (c : Byte) : isMinus c = true ↔ c = 0x2D#8 := by simp [isMinus, Config.minus]

theorem isDigit_iff (c : Byte) : isDigit c = true ↔ 0x30 ≤ c.toNat ∧ c.toNat ≤ 0x39 := by
  simp [isDigit, Config.digitLo, Config.digitHi, BitVec.le_def]

theorem not_isMinus_of_isDigit {c : Byte} (h : isDigit c = true) : isMinus c = false := by
  revert c; decide

theorem leadingMinus_iff (first : Bool) (c : Byte) :
    leadingMinus first c = true ↔ first = true ∧ c = 0x2D#8 := by simp [leadingMinus, isMinus_iff]

theorem decStep_exhausted {d : DecRegs} (c : Byte) (h : exhausted d.rem = true) : decStep d c = d := by
  simp [decStep, h]

theorem decStep_minus {d : DecRegs} {c : Byte} (hr : exhausted d.rem = false)
    (hm : leadingMinus d.first c = true) : decStep d c = ⟨d.acc, true, d.rem - 1#8, false⟩ := by
  simp [decStep, hr, hm]

theorem decStep_digit {d : DecRegs} {c : Byte} (hr : exhausted d.rem = false) (hd : isDigit c = true) :
    decStep d c = ⟨accumulateDigit d.acc c, d.neg, d.rem - 1#8, false⟩ := by
  simp [decStep, hr, hd, leadingMinus, not_isMinus_of_isDigit hd]

theorem decStep_other {d : DecRegs} {c : Byte} (hr : exhausted d.rem = false)
    (hm : leadingMinus d.first c = false) (hd : isDigit c = false) :
    decStep d c = ⟨d.acc, d.neg, d.rem - 1#8, false⟩ := by simp [decStep, hr, hm, hd]

theorem decStep_neg (d : DecRegs) (c : Byte) : (decStep d c).neg = (d.neg || (!exhausted d.rem && leadingMinus d.first c)) := by
  unfold decStep
  split
  · simp [*]
  · split <;> (try split) <;> simp_all

theorem decStep_first (d : DecRegs) (c : Byte) : (decStep d c).first = (d.first && exhausted d.rem) := by
  unfold decStep
  split
  · simp [*]
  · split <;> (try split) <;> simp_all

theorem decStep_rem (d : DecRegs) (c : Byte) :
    (decStep d c).rem = if exhausted d.rem then d.rem else d.rem - 1#8 := by
  unfold decStep
  split
  · rfl
  · split <;> (try split) <;> rfl

theorem decStep_acc (d : DecRegs) (c : Byte) :
    (decStep d c).acc = if !exhausted d.rem && isDigit c then accumulateDigit d.acc c else d.acc := by
  by_cases hr : exhausted d.rem = true
  · simp [decStep_exhausted c hr, hr]
  · rw [Bool.not_eq_true] at hr
    by_cases hd : isDigit c = true
    · simp [decStep_digit hr hd, hr, hd]
    · rw [Bool.not_eq_true] at hd
      by_cases hm : leadingMinus d.first c = true
      · simp [decStep_minus hr hm, hd]
      · simp [decStep_other hr (by simpa using hm) hd, hd]

@[simp] theorem decFold_nil (d : DecRegs) : decFold d [] = d := rfl

@[simp] theorem decFold_cons (d : DecRegs) (c : Byte) (cs : List Byte) :
    decFold d (c :: cs) = decFold (decStep d c) cs := rfl

@[simp] theorem decFold_append (d : DecRegs) (cs es : List Byte) :
    decFold d (cs ++ es) = decFold (decFold d cs) es := by simp [decFold]

theorem decFold_exhausted {d : DecRegs} (cs : List Byte) (h : exhausted d.rem = true) : decFold d cs = d := by
  induction cs with
  | nil => rfl
  | cons c cs ih => rw [decFold_cons, decStep_exhausted c h, ih]

@[simp] theorem decValue_false (acc : DecWord) : decValue acc false = acc := rfl

end Sys2Proof.Machine
end

