-- ==== Sys2Proof/Laws/Decode.lean ====
section
/-! SUPPORT. What the fields of a command word are. -/
namespace Sys2Proof

@[simp] theorem opField_wordOf (op : BitVec 4) (arg : Byte) : opField (wordOf op arg) = op := by
  apply BitVec.eq_of_getLsbD_eq
  intro i hi
  have h1 : 8 + i < 12 := by omega
  have h2 : arg.getLsbD (8 + i) = false := by apply BitVec.getLsbD_of_ge; omega
  rw [opField, wordOf, BitVec.getLsbD_extractLsb']
  simp only [BitVec.getLsbD_or, BitVec.getLsbD_shiftLeft, BitVec.getLsbD_setWidth, h2]
  simp [hi, h1]
  omega

@[simp] theorem argField_wordOf (op : BitVec 4) (arg : Byte) : argField (wordOf op arg) = arg := by
  apply BitVec.eq_of_getLsbD_eq
  intro i hi
  have h1 : i < 12 := by omega
  rw [argField, wordOf, BitVec.getLsbD_extractLsb']
  simp only [BitVec.getLsbD_or, BitVec.getLsbD_shiftLeft, BitVec.getLsbD_setWidth]
  simp [hi, h1]

@[simp] theorem opField_encode (i : Instr) : opField (encode i) = i.op := opField_wordOf _ _

@[simp] theorem argField_encode (i : Instr) : argField (encode i) = i.arg := argField_wordOf _ _

/-- A command word is its two fields (30_encoding.md R40). -/
theorem wordOf_fields (w : CmdWord) : wordOf (opField w) (argField w) = w := by
  apply BitVec.eq_of_getLsbD_eq
  intro i hi
  rw [opField, argField, wordOf]
  simp only [BitVec.getLsbD_or, BitVec.getLsbD_shiftLeft, BitVec.getLsbD_setWidth, BitVec.getLsbD_extractLsb']
  by_cases h : i < 8
  · simp [h, hi]
  · have e : 8 + (i - 8) = i := by omega
    have h4 : i - 8 < 4 := by omega
    have h5 : i - 8 < 12 := by omega
    simp [h, hi, e, h4, h5]

end Sys2Proof
end

