-- ==== Sys2Proof/Laws/Macros.lean ====
section
/-! SUPPORT. What a string literal stands for, said once for the macros that take one. -/
namespace Sys2Proof.Machine

/-- Characters of ASCII have their codes as bytes. -/
theorem literalBytes_of_ascii {chars : List Char} (h : ∀ c ∈ chars, c.toNat < 128) :
    literalBytes chars = some (chars.map (fun c => BitVec.ofNat 8 c.toNat)) := by
  induction chars with
  | nil => rfl
  | cons c cs ih =>
    rw [literalBytes, if_pos (h c List.mem_cons_self), ih fun x hx => h x (List.mem_cons_of_mem _ hx)]
    rfl

/-- The first character outside the quotes ends the literal. -/
theorem literalAtHead_quoted {chars : List Char} (rest : List Char) (h : ∀ c ∈ chars, c ≠ doubleQuote) :
    literalAtHead (doubleQuote :: chars ++ doubleQuote :: rest) = some (chars, rest) := by
  have hp : ∀ c ∈ chars, (c != doubleQuote) = true := fun c hc => by simpa using h c hc
  simp [literalAtHead, List.dropWhile_append_of_pos hp, List.takeWhile_append_of_pos hp]

/-- A literal's bytes and their number, for every text that one can hold. -/
theorem literalOperand_quoted {chars : List Char} (h : ∀ c ∈ chars, c.toNat < 128 ∧ c ≠ doubleQuote) :
    literalOperand (doubleQuote :: chars ++ [doubleQuote]) =
      some (chars.map (fun c => BitVec.ofNat 8 c.toNat), chars.length) := by
  rw [literalOperand, literalAtHead_quoted [] fun c hc => (h c hc).2]
  simp [literalBytes_of_ascii fun c hc => (h c hc).1, endsHere]

end Sys2Proof.Machine
end

