-- ==== Sys2Proof/Laws/PerInstr.lean ====
section
/-! SUPPORT. What is said of each command as syntax: its two fields in its canonical word (30_encoding.md R40, R42). -/
namespace Sys2Proof.Laws.CanonicalWord

/-- The canonical word of a well-formed command has the command's `op` in bits 11:8 and its `arg` in bits 7:0, and no
other word has both (30_encoding.md R40, R42). -/
def Statement (i : Instr) : Prop :=
  i.wellFormed = true → opField (encode i) = i.op ∧ argField (encode i) = i.arg ∧
    ∀ w, opField w = i.op → argField w = i.arg → w = encode i

theorem of_fields (i : Instr) : Statement i :=
  fun _ => ⟨opField_encode i, argField_encode i, fun w ho ha => by
    rw [← wordOf_fields w, ho, ha, encode]⟩

theorem crcInit : Statement .crcInit := of_fields _
theorem crcUpd (b : Byte) : Statement (.crcUpd b) := of_fields _
theorem crcGet : Statement .crcGet := of_fields _
theorem decInit (len : Byte) : Statement (.decInit len) := of_fields _
theorem decChr (c : Byte) : Statement (.decChr c) := of_fields _
theorem decGet : Statement .decGet := of_fields _

end Sys2Proof.Laws.CanonicalWord
end

