-- ==== Sys2Proof/Laws/Step.lean ====
section
/-! SUPPORT. What the step does, by what the host presents, and what a list of commands does, by its head. -/
namespace Sys2Proof.Machine

theorem step_nothing {s : State} (h : s.input = []) : step s = .next s.idle := by
  simp [step, stepInput, h]

theorem step_event {s : State} {e : HostEvent} {rest : List HostEvent} (h : s.input = e :: rest) :
    step s = execEvent e (s.withInput rest) := by simp [step, stepInput, h]

/-- Everything a step that answers a next state can have done: nothing was presented, or a decoded command ran, or a
reset was taken. -/
theorem step_cases {s t : State} (h : step s = .next t) :
    (s.input = [] ∧ t = s.idle) ∨
    (∃ w i rest, s.input = .command w :: rest ∧ decode w = .ok i ∧ exec i (s.withInput rest) = .next t) ∨
    (∃ e rest, s.input = e :: rest ∧ (e = .reset ∨ ∃ w, e = .resetWithCommand w) ∧
      t = State.reset.withInput rest) := by
  cases hs : s.input with
  | nil =>
    rw [step_nothing hs] at h
    exact .inl ⟨rfl, (Host.Outcome.next.inj h).symm⟩
  | cons e rest =>
    rw [step_event hs] at h
    cases e with
    | command w =>
      simp only [execEvent, execWord] at h
      split at h
      next i hd => exact .inr (.inl ⟨w, i, rest, rfl, (commandOf_eq_ok_iff w i).mp hd, h⟩)
      next => cases h
    | reset => exact .inr (.inr ⟨_, rest, rfl, .inl rfl, (Host.Outcome.next.inj h).symm⟩)
    | resetWithCommand w =>
      exact .inr (.inr ⟨_, rest, rfl, .inr ⟨w, rfl⟩, (Host.Outcome.next.inj h).symm⟩)

@[simp] theorem runCommands_nil (s : State) : runCommands [] s = .next s := rfl

theorem runCommands_cons_of_next {i : Instr} {s t : State} (is : List Instr) (h : exec i s = .next t) :
    runCommands (i :: is) s = runCommands is t := by simp [runCommands, h]

theorem runCommands_append_of_next {as : List Instr} {s t : State} (bs : List Instr)
    (h : runCommands as s = .next t) : runCommands (as ++ bs) s = runCommands bs t := by
  induction as generalizing s with
  | nil => cases h; rfl
  | cons i as ih =>
    cases he : exec i s with
    | next u =>
      rw [runCommands_cons_of_next as he] at h
      rw [List.cons_append, runCommands_cons_of_next _ he, ih h]
    | fault r => cases r
    | refused r => simp [runCommands, he] at h

end Sys2Proof.Machine
end

