-- ==== Sys2Proof/Tests/Slice0.lean ====
section
/-! SUPPORT. The model's own tests. Expected values are the spec's: the vectors of 95_test_vectors.md and the examples of
the rules, named beside each test. After them, for every statement with hypotheses, a theorem that meets them. -/
namespace Sys2Proof.Tests
open Sys2Proof.Machine

/-- The next state of an outcome. -/
def nextOf : Host.Outcome State Fault Refusal → Option State
  | .next s => some s
  | .fault _ => none
  | .refused _ => none

/-- The refusal of an outcome. -/
def refusalOf : Host.Outcome State Fault Refusal → Option Refusal
  | .next _ => none
  | .fault _ => none
  | .refused r => some r

/-- The state after reset with one command word presented. -/
def presented (w : CmdWord) : State := State.reset.withInput [.command w]

/-- A state in the middle of a field, with a CRC in progress. -/
def busy : State :=
  { crc := 0x66F6#16, acc := 12#32, neg := true, rem := 1#8, first := false, input := [], result := none }

/-! ### WellFormed: an ill-formed term for each check (30_encoding.md R49, R51) -/

theorem test_missing_operand_ill_formed : (AsmCommand.mk .crcUpd none).wellFormed = false := by decide
theorem test_superfluous_operand_ill_formed : (AsmCommand.mk .decGet (some 0)).wellFormed = false := by decide
theorem test_operand_256_ill_formed : (AsmCommand.mk .decChr (some 256)).wellFormed = false := by decide
theorem test_operand_255_well_formed : (AsmCommand.mk .decChr (some 255)).wellFormed = true := by decide
theorem test_macro_length_256_ill_formed : macroLengthWellFormed 256 = false := by decide

/-! ### Decoding: words written out from 30_encoding.md R42 (vectors V62) -/

theorem test_decode_crcInit : decode 0b0000_00000000#12 = .ok .crcInit := by decide
theorem test_decode_crcInit_ignores_arg : decode 0b0000_11111111#12 = .ok .crcInit := by decide
theorem test_decode_crcUpd : decode 0b0001_00110101#12 = .ok (.crcUpd 0x35#8) := by decide
theorem test_decode_crcGet_ignores_arg : decode 0b0010_10100101#12 = .ok .crcGet := by decide
theorem test_decode_decInit : decode 0b0100_00000100#12 = .ok (.decInit 4#8) := by decide
theorem test_decode_decChr : decode 0b0101_00101101#12 = .ok (.decChr 0x2D#8) := by decide
theorem test_decode_decGet_ignores_arg : decode 0b0110_11111111#12 = .ok .decGet := by decide
theorem test_decode_reserved : [0x300#12, 0x3FF#12, 0x700#12, 0x7FF#12, 0x800#12, 0x835#12, 0xF00#12, 0xFFF#12].all
    (fun w => decode w == .error .reserved) = true := by decide
theorem test_strict_arg_refuses_nonzero : decodeWith true 0x0FF#12 = .error .argNotZero := by decide
theorem test_table_word_wider_than_12_bits : decodeTableWord 16 0x1000 = none := by decide

/-! ### One step of each command -/

/-- V29: word 0x0FF from CRC = 0xB33D. -/
theorem test_crcInit_step : (nextOf (step ({ State.reset with crc := 0xB33D#16 }.withInput [.command 0x0FF#12]))).map (·.crc)
    = some 0x0000#16 := by decide
/-- V8. -/
theorem test_crcUpd_step : (nextOf (exec (.crcUpd 0x2C#8) busy)).map (·.crc) = some 0x1F8E#16 := by decide
/-- V6, through the word. -/
theorem test_crcUpd_word : (nextOf (step (presented 0x141#12))).map (·.crc) = some 0x58E5#16 := by decide
/-- 40_crc.md R61: the accumulator is not cleared. -/
theorem test_crcGet_step : (nextOf (exec .crcGet busy)).map (fun t => (t.crc, t.result))
    = some (0x66F6#16, some (.crc16 0x66F6#16)) := by decide
/-- 41_decimal.md R74, the example, from a state in the middle of a field. -/
theorem test_decInit_step : (nextOf (exec (.decInit 4#8) busy)).map (·.decRegs) = some ⟨0#32, false, 4#8, true⟩ := by decide
/-- Program P2, the step from ACC 12 with `6`: 126. -/
theorem test_decChr_digit : (nextOf (exec (.decChr 0x36#8) busy)).map (·.decRegs) = some ⟨126#32, true, 0#8, false⟩ := by decide
/-- V48: a second minus does not cancel the first, it is ignored. -/
theorem test_decChr_later_minus : (nextOf (exec (.decChr 0x2D#8) busy)).map (·.decRegs) = some ⟨12#32, true, 0#8, false⟩ := by
  decide
/-- Program P2 step 6: ACC 126 and NEG 1 give the pattern of -126. -/
theorem test_decGet_negative : (nextOf (exec .decGet { busy with acc := 126#32 })).map (·.result)
    = some (some (.dec32 0xFFFFFF82#32)) := by decide
/-- V58. -/
theorem test_decGet_after_reset : (nextOf (step (presented 0x600#12))).map (·.result) = some (some (.dec32 0#32)) := by decide
/-- V59, program P5 step 7: after reset a character is ignored. -/
theorem test_decChr_after_reset : (nextOf (step (presented 0x537#12))).map (·.block) = some BlockState.reset := by
  decide

/-! ### The block alone: the command an input, the result an output (00_scope.md R8) -/

/-- Program P1, its command `CRC.UPD '5'`. -/
theorem test_block_step : (blockStep BlockState.reset (.command 0x135#12)).toOption =
    some (⟨0x66F6#16, 0#32, false, 0#8, true⟩, none) := by decide
theorem test_block_get : (blockStep busy.block (.command 0x200#12)).toOption =
    some (busy.block, some (.crc16 0x66F6#16)) := by decide

/-! ### Steps that are no command -/

/-- Each reserved word beside its nearest defined word (after V62g). -/
theorem test_reserved_refused : refusalOf (step (presented 0x300#12)) = some (.reservedWord 0x300#12) := by decide
theorem test_nearest_defined_runs : (nextOf (step (presented 0x200#12))).isSome = true := by decide
/-- Program P5 step 6. -/
theorem test_reset_event : nextOf (step (busy.withInput [.reset])) = some State.reset := by decide
/-- 70_reset_and_hazards.md R106: the command is lost. -/
theorem test_reset_beats_command : nextOf (step (busy.withInput [.resetWithCommand 0x135#12])) = some State.reset := by decide
theorem test_nothing_presented : (nextOf (step busy)).map (·.block) = some busy.block := by decide
theorem test_fetch_word : (nextOf (step (State.reset.withFetchWord 16 0x135))).map (·.crc) = some 0x66F6#16 := by decide

/-! ### The functions over ranges and fields -/

/-- V20. -/
theorem test_crc16_1 : crc16 [0x31#8, 0x32#8] 1 = 0x2672#16 := by decide
/-- V32: a digit beyond the length is ignored. -/
theorem test_decode_429_length_2 : decodeDecimal [0x34#8, 0x32#8, 0x39#8] 2#8 = 42#32 := by decide
/-- V48, V49, V50, V51. -/
theorem test_decode_second_minus : decodeDecimal [0x2D#8, 0x2D#8, 0x35#8] 3#8 = 0xFFFFFFFB#32 := by decide
theorem test_decode_inner_minus : decodeDecimal [0x35#8, 0x2D#8, 0x33#8] 3#8 = 53#32 := by decide
theorem test_decode_plus : decodeDecimal [0x2B#8, 0x35#8] 2#8 = 5#32 := by decide
/-- V44, by its last digit: 429496729 then 5. -/
theorem test_accumulate_top : accumulateDigit 429496729#32 0x35#8 = 0xFFFFFFFF#32 := by decide
/-- V45, by its last digit: 429496729 then 6 wraps to 0. -/
theorem test_accumulate_wraps : accumulateDigit 429496729#32 0x36#8 = 0#32 := by decide
/-- S3. -/
theorem test_encode_minus_126 : encodeDecimal (-126#32) = [0x2D#8, 0x31#8, 0x32#8, 0x36#8] := by decide

/-! ### Host-side notation and context -/

/-- The three examples of 30_encoding.md R49, and the other spellings. -/
theorem test_asm_character : (assembleLine "CRC.UPD ','".toList).toOption = some (some 0x12C#12) := by decide
theorem test_asm_decimal : (assembleLine "DEC.INIT 4 ; four".toList).toOption = some (some 0x404#12) := by decide
theorem test_asm_no_operand : (assembleLine "DEC.GET".toList).toOption = some (some 0x600#12) := by decide
theorem test_asm_hexadecimal : (assembleLine "CRC.UPD 0x2C".toList).toOption = some (some 0x12C#12) := by decide
theorem test_asm_escape : (assembleLine "DEC.CHR '\\n'".toList).toOption = some (some 0x50A#12) := by decide
theorem test_asm_operand_256 : (assembleLine "CRC.UPD 256".toList).toOption = none := by decide
theorem test_asm_unknown : (assembleLine "CRC.NOP".toList).toOption = none := by decide
/-- 30_encoding.md R51: the macro is refused above 255. -/
theorem test_macro_length : decodeMacro [] 256 = .error .lengthOver255 := by decide
/-- 30_encoding.md R50, the example (program P1), and 95_test_vectors.md P2. -/
theorem test_literal_operand : literalOperand "\"5,10,42,\"".toList =
    some ([0x35#8, 0x2C#8, 0x31#8, 0x30#8, 0x2C#8, 0x34#8, 0x32#8, 0x2C#8], 8) := by decide
theorem test_literal_line : (crc16LiteralLine "CRC16 \"5,\" ; sign".toList).toOption =
    some [.crcInit, .crcUpd 0x35#8, .crcUpd 0x2C#8, .crcGet] := by decide
theorem test_decode_literal : (decodeLiteralMacro "\"-126\"".toList 4).toOption =
    some [.decInit 4#8, .decChr 0x2D#8, .decChr 0x31#8, .decChr 0x32#8, .decChr 0x36#8, .decGet] := by decide
theorem test_unclosed_literal : literalOperand "\"5,".toList = none := by decide
/-- 20_memory.md R33, R34 on the line of S2, `5,10,42,0`, with a carriage return. -/
theorem test_sentence : (crcRange (lineBuffer [0x35#8, 0x2C#8, 0x31#8, 0x30#8, 0x2C#8, 0x34#8, 0x32#8, 0x2C#8, 0x30#8, 0x0D#8, 0x0A#8]),
    sentenceFields (lineBuffer [0x35#8, 0x2C#8, 0x31#8, 0x30#8, 0x2C#8, 0x34#8, 0x32#8, 0x2C#8, 0x30#8, 0x0D#8, 0x0A#8])) =
    (some [0x35#8, 0x2C#8, 0x31#8, 0x30#8, 0x2C#8, 0x34#8, 0x32#8, 0x2C#8],
     some [[0x35#8], [0x31#8, 0x30#8], [0x34#8, 0x32#8], [0x30#8]]) := by decide

/-! ### Witnesses: the hypotheses of each statement are met together -/

/-- StepChangesRegisterOnlyByItsWriters: a step for each clause, in which that register does change. -/
theorem witness_step_changes_crc : ∃ s t : State, step s = .next t ∧ t.crc ≠ s.crc :=
  ⟨presented 0x101#12, _, rfl, by decide⟩
theorem witness_step_changes_acc : ∃ s t : State, step s = .next t ∧ t.acc ≠ s.acc :=
  ⟨busy.withInput [.command 0x539#12], _, rfl, by decide⟩
theorem witness_step_changes_neg : ∃ s t : State, step s = .next t ∧ t.neg ≠ s.neg :=
  ⟨{ presented 0x52D#12 with rem := 1#8 }, _, rfl, by decide⟩
theorem witness_step_changes_rem : ∃ s t : State, step s = .next t ∧ t.rem ≠ s.rem :=
  ⟨presented 0x401#12, _, rfl, by decide⟩
theorem witness_step_changes_first : ∃ s t : State, step s = .next t ∧ t.first ≠ s.first :=
  ⟨{ presented 0x530#12 with rem := 255#8 }, _, rfl, by decide⟩

/-- RemCountsCharactersLeftAndNeverWraps: more characters than the length. -/
theorem witness_rem_exhausted : State.reset.rem = 0#8 := by decide
theorem witness_rem_counts : ∀ l, Instr.decInit l ∉ [Instr.decChr 0x30#8, .crcGet, .decChr 0x31#8] := by simp

/-- RegistersDetermineEveryFutureResult: two different states with the same registers. -/
theorem witness_same_registers : ∃ s s' : State, s.sameRegisters s' ∧ s ≠ s' :=
  ⟨busy, busy.withInput [.reset], ⟨rfl, rfl, rfl, rfl, rfl⟩, by decide⟩

/-- UnitsAreIndependentUnderInterleaving, its reading clauses: two states that agree on one unit only. -/
theorem witness_same_crc_only : ∃ s s' : State, s.crc = s'.crc ∧ s.acc ≠ s'.acc :=
  ⟨busy, { busy with acc := 13#32 }, rfl, by decide⟩
theorem witness_same_dec_only : ∃ s s' : State, s.sameDec s' ∧ s.crc ≠ s'.crc :=
  ⟨busy, { busy with crc := 0#16 }, ⟨rfl, rfl, rfl, rfl⟩, by decide⟩

/-- ResetValuesAreThoseOfBothInits: a state other than reset, and a list with a DEC.INIT of length 0. -/
theorem witness_reset_registers : (presented 0x200#12).sameRegisters State.reset ∧
    ∀ len, Instr.decInit len ∈ [Instr.decInit 0#8, .decChr 0x37#8, .crcUpd 1#8] → len = 0#8 :=
  ⟨⟨rfl, rfl, rfl, rfl, rfl⟩, by simp⟩

/-- EveryStepKeepsRegisterInvariants: a step that sets NEG and clears FIRST. -/
theorem witness_inv_step : ∃ s t : State, s.Inv ∧ step s = .next t ∧ t.neg = true ∧ t.first = false :=
  ⟨{ presented 0x52D#12 with rem := 1#8 }, _, by simp [State.Inv, presented], rfl, by decide⟩

/-- ReachableStatesMeetInvariantsAndNothingTiesCrc: a reachable state with FIRST = 1, and one with NEG = 1. -/
theorem witness_reachable_first : ∃ t, Reachable t ∧ t.first = true := ⟨State.reset, ⟨[], 0, rfl⟩, rfl⟩
theorem witness_reachable_neg : ∃ t : State, Reachable t ∧ t.neg = true :=
  ⟨_, ⟨[.command 0x401#12, .command 0x52D#12], 2, rfl⟩, by decide⟩

/-- ResetEventAnswersResetState, ResetBeatsSimultaneousCommand (with a reserved word), NothingPresentedHoldsTheState. -/
theorem witness_reset_presented : (busy.withInput [.reset, .command 0x135#12]).input = .reset :: [.command 0x135#12] := rfl
theorem witness_reset_with_command_presented : (busy.withInput [.resetWithCommand 0xFFF#12]).input = [.resetWithCommand 0xFFF#12] := rfl
theorem witness_nothing_presented : busy.input = [] := rfl

/-- StepRunsTheDecodedCommand. -/
theorem witness_decoded_command : (presented 0x5FF#12).input = [.command 0x5FF#12] ∧ decode 0x5FF#12 = .ok (.decChr 0xFF#8) :=
  ⟨rfl, by decide⟩
/-- PresentedTableWordRunsNext. -/
theorem witness_table_word : decodeTableWord 16 0x4FF = some (.decInit 255#8) := by decide
/-- StepRefusesExactlyReservedWords: the boundary values of `op`. -/
theorem witness_refused : [0x300#12, 0x3FF#12, 0x700#12, 0x7FF#12, 0x800#12, 0xFFF#12].all
    (fun w => refusalOf (step (presented w)) == some (.reservedWord w)) = true := by decide
/-- DefinedInputNeverStops: a reserved word lost to a reset is no breach. -/
theorem witness_input_defined : (busy.withInput [.command 0x6FF#12, .resetWithCommand 0x300#12, .reset]).inputDefined = true := by
  decide
/-- GetsAndInitsAreIdempotent, the DEC.CHR clause. -/
theorem witness_idempotent_character : (∀ b, Instr.decChr 0x35#8 ≠ .crcUpd b) ∧
    ∀ c, Instr.decChr 0x35#8 = .decChr c → State.reset.rem = 0#8 := ⟨by simp, fun _ _ => rfl⟩

/-- MachineStepIsBlockStep: an event of each kind presented, words that decode at both ends of the map, and the boundary
reserved words. -/
theorem witness_block_event : (presented 0x600#12).input = [.command 0x600#12] ∧
    (busy.withInput [.resetWithCommand 0x300#12]).input = [.resetWithCommand 0x300#12] ∧
    decode 0x000#12 = .ok .crcInit ∧ decode 0x6FF#12 = .ok .decGet := ⟨rfl, rfl, by decide, by decide⟩
theorem witness_block_refuses : [0x300#12, 0x3FF#12, 0x700#12, 0x7FF#12, 0x800#12, 0xFFF#12].all
    (fun w => (blockStep busy.block (.command w)).toOption.isNone) = true := by decide

/-- DecodeOfEncodeIsTheCommand: every command is well formed. -/
theorem witness_well_formed : (Instr.decChr 0xFF#8).wellFormed = true := by decide
/-- DecoderAgreesWithMatchAndMask: a row and a word that matches it. -/
theorem witness_row_matches : (OpcodeRow.mk .decGet 0xF00#12 0x600#12) ∈ opcodeRows ∧
    (OpcodeRow.mk .decGet 0xF00#12 0x600#12).matchesWord 0x6FF#12 = true := by decide
/-- OpBitsSelectUnitAndFunction, the reserved function. -/
theorem witness_function_reserved : (opField 0x700#12).extractLsb' 0 2 = 3#2 := by decide
/-- OperandlessCommandsIgnoreArg, each clause, `arg` not 0. -/
theorem witness_operandless : opField 0x0FF#12 = 0x0#4 ∧ opField 0x2FF#12 = 0x2#4 ∧ opField 0x6FF#12 = 0x6#4 ∧
    argField 0x6FF#12 ≠ 0#8 ∧ decodeWith false 0x6FF#12 = .ok .decGet ∧ Instr.decGet.mnemonic.takesOperand = false := by decide
/-- AssemblerEmitsCanonicalWords. -/
theorem witness_assembles : (assemble ⟨.decInit, some 255⟩).toOption = some 0x4FF#12 := by decide
/-- Crc16MacroYieldsCrcOfBuffer: the whole of a buffer. -/
theorem witness_crc16_macro : 2 ≤ [0x61#8, 0x62#8].length := by decide
/-- StringLiteralStandsForBufferAndLength: the characters at both ends of ASCII, and two of the example's. -/
theorem witness_literal : ∀ c ∈ [Char.ofNat 0, '5', ',', Char.ofNat 127], c.toNat < 128 ∧ c ≠ doubleQuote := by
  simp only [List.forall_mem_cons, List.not_mem_nil, false_implies, implies_true, and_true]
  decide
/-- DecodeMacrosYieldValueOfField: the longest field, the extra character, the first refused length. -/
theorem witness_decode_macro : 255 ≤ 255 ∧ 255 ≤ (List.replicate 255 0x30#8).length :=
  ⟨le_refl _, by rw [List.length_replicate]⟩
theorem witness_decode_plus_one_macro : 255 ≤ 255 ∧ 255 < (List.replicate 256 0x30#8).length :=
  ⟨le_refl _, by rw [List.length_replicate]; omega⟩
theorem witness_decode_macro_refused : 255 < 256 := by decide

/-- CrcInitClearsAccumulator, CrcGetYieldsAccumulator, DecGetYieldsSignedValue: words with the `op`. -/
theorem witness_op_words : (0x0FF#12).toNat / 256 = 0x0 ∧ (0x2FF#12).toNat / 256 = 0x2 ∧ (0x6FF#12).toNat / 256 = 0x6 := by decide
/-- CrcRoundShiftsAndReducesBySetHighBit: the last bit. -/
theorem witness_bit_index : 15 < 16 := by decide
/-- Crc16FoldsBytesInAscendingOrder: the last byte of a list. -/
theorem witness_last_byte : 1 < [0x61#8, 0x62#8].length := by decide
/-- CrcCommandsComputeCrc16: with a DEC command and an early CRC.GET between the bytes. -/
theorem witness_crc_range : Instr.crcInit ∉ [Instr.crcUpd 1#8, .decInit 3#8, .crcGet, .crcUpd 2#8] := by decide
/-- CrcUpdateIsBijectiveAndDetectsOneByte: different bytes, the least count, equal two-byte lists' hypothesis. -/
theorem witness_crc_laws : (0x00#8 : Byte) ≠ 0x01#8 ∧ 3 ≤ 3 ∧ crc16 [0x61#8, 0x62#8] 2 = crc16 [0x61#8, 0x62#8] 2 := by
  refine ⟨by decide, by decide, rfl⟩
/-- CrcIsLinear: `ab` and `ba`, V21. -/
theorem witness_equal_lengths : [0x61#8, 0x62#8].length = [0x62#8, 0x61#8].length := by decide

/-- CharacterClassesAreAsStated: the boundary characters of each class. -/
theorem witness_character_classes : charClass 0x30#8 = .digit ∧ charClass 0x39#8 = .digit ∧ charClass 0x2F#8 = .other ∧
    charClass 0x3A#8 = .other ∧ charClass 0x2D#8 = .minus ∧ 0x80 ≤ (0x80#8).toNat ∧ 0x5A ≤ (0x5A#8).toNat ∧
    0x61 ≤ (0x61#8).toNat ∧ (0x7A#8).toNat ≤ 0x7A := by decide
/-- DecGetYieldsSignedValue: fewer characters than the length. -/
theorem witness_early_read : [0x2D#8, 0x31#8].length ≤ (4#8).toNat := by decide
/-- DecCommandsComputeDecodeDecimal: with a CRC command and an early DEC.GET between the characters. -/
theorem witness_dec_field : ∀ l, Instr.decInit l ∉ [Instr.decChr 0x2D#8, .crcInit, .decGet, .decChr 0x31#8] := by simp
/-- FieldLengthAloneDelimitsTheField, each clause. -/
theorem witness_field_lengths : [0x34#8, 0x32#8].length = (2#8).toNat ∧ [0x34#8].length ≤ (255#8).toNat ∧
    [0x35#8] ≠ [] ∧ isDigit 0x2D#8 = false ∧ [0x35#8].length + 1 + [0x33#8].length ≤ 255 := by decide
/-- DecimalFieldWrapsModuloTwoToThe32, each clause: digits at both ends of the range, and the longest fields. -/
theorem witness_digit_fields : (∀ c ∈ [0x30#8, 0x39#8], isDigit c = true) ∧ [0x30#8, 0x39#8].length ≤ 9 ∧
    (List.replicate 255 0x39#8).length ≤ 255 ∧ (List.replicate 254 0x39#8).length ≤ 254 := by
  refine ⟨by decide, by decide, by rw [List.length_replicate], by rw [List.length_replicate]⟩
/-- NegationFixesOnlyZeroAndTheMinimum. -/
theorem witness_negation : (0x80000001#32 : DecWord) ≠ 0x80000000#32 := by decide
/-- SentenceRangeAndFieldsAreAsStated: four fields, one of them empty. -/
theorem witness_sentence : ∀ f ∈ [[0x35#8], [], [0x34#8, 0x32#8], [0x2D#8, 0x31#8]], ∀ c ∈ f,
    c ≠ 0x2C#8 ∧ c ≠ 0x0A#8 ∧ c ≠ 0x0D#8 := by decide

end Sys2Proof.Tests
end

section
/-! SUPPORT. What the decoder accepts and what it refuses: canonical words decode to their commands, and the words that
decode to nothing are the reserved ones (30_encoding.md R45, R47). -/
namespace Sys2Proof

theorem opField_toNat (w : CmdWord) : (opField w).toNat = w.toNat / 256 := by
  have h : w.toNat < 4096 := w.isLt
  rw [opField, BitVec.extractLsb'_toNat, Nat.shiftRight_eq_div_pow]
  omega

/-- The canonical word has `arg` 0 where there is no operand, so STRICT_ARG does not matter. -/
theorem decodeWith_encode (strict : Bool) (i : Instr) : decodeWith strict (encode i) = .ok i := by
  unfold decodeWith
  cases i <;> simp [Instr.op, Instr.mnemonic, Mnemonic.op, Instr.arg, withoutOperand]

theorem decode_encode (i : Instr) : decode (encode i) = .ok i := decodeWith_encode _ i

/-- With STRICT_ARG at its default the only ground on which a word decodes to nothing is its reserved `op`. -/
theorem decode_eq_error_iff (w : CmdWord) (e : DecodeError) :
    decode w = .error e ↔ e = .reserved ∧ isReserved w = true := by
  unfold decode decodeWith isReserved
  generalize opField w = op
  split
  case h_7 h0 h1 h2 h4 h5 h6 =>
    have hop : (op == 0x3#4 || op == 0x7#4 || op.getLsbD 3) = true := by
      revert op
      decide
    rw [hop, Except.error.injEq, eq_self, and_true]
    exact eq_comm
  all_goals simp [withoutOperand, Config.strictArg]

/-- The ten values of `op` that 30_encoding.md R47 lists, read off the word as a number. -/
theorem isReserved_iff (w : CmdWord) :
    isReserved w = true ↔ w.toNat / 256 = 0x3 ∨ w.toNat / 256 = 0x7 ∨ 0x8 ≤ w.toNat / 256 := by
  rw [← opField_toNat, isReserved]
  generalize opField w = op
  revert op
  decide

end Sys2Proof
end

section
/-! SUPPORT. The machine does what the block does (00_scope.md R8): one event, one step, a run, and a list of commands;
with the statements about it. -/
namespace Sys2Proof.Machine

/-! ## Which words the block refuses -/

theorem commandOf_eq_error_iff (w : CmdWord) (r : Refusal) :
    commandOf w = .error r ↔ r = .reservedWord w ∧ isReserved w = true := by
  unfold commandOf
  split
  next i hd =>
    have hw : isReserved w = false := by simpa [hd] using decode_eq_error_iff w .reserved
    simp [hw]
  next hd =>
    have hw : isReserved w = true := ((decode_eq_error_iff w _).mp hd).2
    simp [hw, eq_comm]
  next hd => simpa using ((decode_eq_error_iff w _).mp hd).1

/-- A refusal of the block is of a reserved word presented as a command; a word beside a reset is lost to it. -/
theorem blockStep_eq_error_iff (b : BlockState) (e : HostEvent) (r : Refusal) :
    blockStep b e = .error r ↔ ∃ w, e = .command w ∧ r = .reservedWord w ∧ isReserved w = true := by
  cases e with
  | command w =>
    have hr := commandOf_eq_error_iff w r
    cases hc : commandOf w <;> simp_all [blockStep, Except.map]
  | reset => simp
  | resetWithCommand w => simp

/-! ## One step -/

theorem execWord_of_decode {w : CmdWord} {i : Instr} (s : State) (h : decode w = .ok i) : execWord w s = exec i s := by
  simp [execWord, (commandOf_eq_ok_iff w i).mpr h]

theorem execEvent_of_ok {s : State} {e : HostEvent} {o : BlockState × Option Result}
    (h : blockStep s.block e = .ok o) : execEvent e s = .next (s.after o) := by
  cases e with
  | command w =>
    cases hc : commandOf w with
    | ok i =>
      have ho : blockExec i s.block = o := by simpa [blockStep, hc, Except.map] using h
      simp [execEvent, execWord, hc, exec_eq, ho]
    | error r => simp [blockStep, hc, Except.map] at h
  | reset => cases h; rfl
  | resetWithCommand w => cases h; rfl

theorem execEvent_of_error {s : State} {e : HostEvent} {r : Refusal} (h : blockStep s.block e = .error r) :
    execEvent e s = .refused r := by
  obtain ⟨w, rfl, hr⟩ := (blockStep_eq_error_iff _ e r).mp h
  simp [execEvent, execWord, (commandOf_eq_error_iff w r).mpr hr]

theorem step_of_blockStep_ok {s : State} {e : HostEvent} {rest : List HostEvent} {o : BlockState × Option Result}
    (hs : s.input = e :: rest) (h : blockStep s.block e = .ok o) : step s = .next ((s.withInput rest).after o) :=
  (step_event hs).trans (execEvent_of_ok h)

theorem step_of_blockStep_error {s : State} {e : HostEvent} {rest : List HostEvent} {r : Refusal}
    (hs : s.input = e :: rest) (h : blockStep s.block e = .error r) : step s = .refused r :=
  (step_event hs).trans (execEvent_of_error (s := s.withInput rest) h)

/-- Settles O13: the presented event is executed as a word, and a word that decodes is executed as its command. -/
theorem stepRunsTheDecodedCommand : Obligations.StepRunsTheDecodedCommand := by
  intro s w i rest hs hd
  exact (step_event hs).trans (execWord_of_decode _ hd)

theorem decode_of_decodeTableWord {nbits w : Nat} {i : Instr} (h : decodeTableWord nbits w = some i) :
    decode (BitVec.ofNat 12 w) = .ok i := by
  unfold decodeTableWord at h
  split at h
  · cases hd : decode (BitVec.ofNat 12 w) <;> simp_all [Except.toOption]
  · cases h

/-- Settles O14: the word stands first in the input, and taking it off again leaves the state as it was. -/
theorem presentedTableWordRunsNext : Obligations.PresentedTableWordRunsNext := by
  intro s nbits w i h
  exact stepRunsTheDecodedCommand (s.withFetchWord nbits w) _ i s.input rfl (decode_of_decodeTableWord h)

/-- Settles O56, by the two outcomes of the block's step on the event presented. -/
theorem machineStepIsBlockStep : Obligations.MachineStepIsBlockStep := by
  refine ⟨fun s e rest hs => ?_, exec_eq, fun b w i => blockStep_of_decode b, fun b e r => ?_⟩
  · cases hb : blockStep s.block e with
    | ok o => exact step_of_blockStep_ok hs hb
    | error r => exact step_of_blockStep_error hs hb
  · simp only [blockStep_eq_error_iff, isReserved_iff]

/-! ## A run -/

theorem run_succ_of_next {s t : State} (n : Nat) (h : step s = .next t) :
    Host.Core.run Sys2Proof.core (n + 1) s = Host.Core.run Sys2Proof.core n t := by
  have hc : Sys2Proof.core.step s = .next t := h
  simp only [Host.Core.run, hc]

theorem run_succ_of_refused {s : State} {r : Refusal} (n : Nat) (h : step s = .refused r) :
    Host.Core.run Sys2Proof.core (n + 1) s = .refused r := by
  have hc : Sys2Proof.core.step s = .refused r := h
  simp only [Host.Core.run, hc]

theorem blockRun_cons_eq_ok {e : HostEvent} {es : List HostEvent} {b : BlockState} {p : BlockState × List Result}
    (h : blockRun (e :: es) b = .ok p) :
    ∃ o q, blockStep b e = .ok o ∧ blockRun es o.1 = .ok q ∧ p = (q.1, o.2.toList ++ q.2) := by
  cases hb : blockStep b e with
  | ok o =>
    rw [blockRun_cons_of_ok es hb] at h
    cases hq : blockRun es o.1 with
    | ok q => exact ⟨o, q, rfl, hq, by simpa [hq, Except.map] using h.symm⟩
    | error r => simp [hq, Except.map] at h
  | error r => simp [blockRun_cons_of_error es hb] at h

theorem blockRun_cons_eq_error {e : HostEvent} {es : List HostEvent} {b : BlockState} {r : Refusal}
    (h : blockRun (e :: es) b = .error r) :
    blockStep b e = .error r ∨ ∃ o, blockStep b e = .ok o ∧ blockRun es o.1 = .error r := by
  cases hb : blockStep b e with
  | ok o =>
    rw [blockRun_cons_of_ok es hb] at h
    cases hq : blockRun es o.1 with
    | ok q => simp [hq, Except.map] at h
    | error r' => exact .inr ⟨o, rfl, by simpa [hq, Except.map] using h⟩
  | error r' => exact .inl (by simpa [blockRun_cons_of_error es hb] using h)

theorem run_of_blockRun_ok {es : List HostEvent} {s : State} {p : BlockState × List Result}
    (h : blockRun es s.block = .ok p) :
    ∃ t, Host.Core.run Sys2Proof.core es.length (s.withInput es) = .next t ∧ t.block = p.1 ∧ t.input = [] := by
  induction es generalizing s p with
  | nil => cases h; exact ⟨s.withInput [], rfl, rfl, rfl⟩
  | cons e es ih =>
    obtain ⟨o, q, ho, hq, rfl⟩ := blockRun_cons_eq_ok h
    have hstep : step (s.withInput (e :: es)) = .next ((s.after o).withInput es) := step_of_blockStep_ok rfl ho
    rw [List.length_cons, run_succ_of_next _ hstep]
    exact ih (s := s.after o) (p := q) hq

theorem run_of_blockRun_error {es : List HostEvent} {s : State} {r : Refusal} (h : blockRun es s.block = .error r) :
    Host.Core.run Sys2Proof.core es.length (s.withInput es) = .refused r := by
  induction es generalizing s with
  | nil => cases h
  | cons e es ih =>
    obtain hr | ⟨o, ho, hr⟩ := blockRun_cons_eq_error h
    · exact run_succ_of_refused _ (step_of_blockStep_error rfl hr)
    · have hstep : step (s.withInput (e :: es)) = .next ((s.after o).withInput es) := step_of_blockStep_ok rfl ho
      rw [List.length_cons, run_succ_of_next _ hstep]
      exact ih (s := s.after o) hr

/-! ## A list of commands -/

theorem runCommands_cons (i : Instr) (is : List Instr) (s : State) :
    runCommands (i :: is) s = runCommands is (s.after (blockExec i s.block)) :=
  runCommands_cons_of_next is (exec_eq i s)

theorem resultsOf_cons (i : Instr) (is : List Instr) (s : State) :
    resultsOf (i :: is) s = (blockExec i s.block).2.toList ++ resultsOf is (s.after (blockExec i s.block)) := by
  simp [resultsOf, exec_eq]

/-- The commands of a list complete, and the block alone over their words has their state and their results. -/
theorem blockRun_encode (is : List Instr) (s : State) : ∃ t, runCommands is s = .next t ∧
    blockRun (is.map (fun i => HostEvent.command (encode i))) s.block = .ok (t.block, resultsOf is s) := by
  induction is generalizing s with
  | nil => exact ⟨s, rfl, rfl⟩
  | cons i is ih =>
    obtain ⟨t, ht, hb⟩ := ih (s.after (blockExec i s.block))
    refine ⟨t, (runCommands_cons i is s).trans ht, ?_⟩
    rw [State.after_block] at hb
    rw [List.map_cons, blockRun_cons_of_ok _ (blockStep_of_decode _ (decode_encode i)), hb, resultsOf_cons]
    rfl

/-- Settles O57, by the two outcomes of the block's run, each an induction on the events. -/
theorem machineRunIsBlockRun : Obligations.MachineRunIsBlockRun := by
  refine ⟨fun events s => ?_, blockRun_encode⟩
  cases hb : blockRun events s.block with
  | ok p => exact run_of_blockRun_ok hb
  | error r => exact run_of_blockRun_error hb

end Sys2Proof.Machine
end

section
/-! SUPPORT. What one command does to the registers of the two units, what one step does to the block, and the
invariants of 10_state.md R23 with the statements about them at reset and over a step. -/
namespace Sys2Proof.Machine

/-! ## The commands on the block, one equation each -/

section
variable (b : BlockState)

@[simp] theorem blockExec_crcInit : blockExec .crcInit b = (b.setCrc 0#16, none) := rfl
@[simp] theorem blockExec_crcUpd (c : Byte) : blockExec (.crcUpd c) b = (b.setCrc (crcByte b.crc c), none) := rfl
@[simp] theorem blockExec_crcGet : blockExec .crcGet b = (b, some (.crc16 b.crc)) := rfl
@[simp] theorem blockExec_decInit (len : Byte) : blockExec (.decInit len) b = (b.setDec (fieldStart len), none) := rfl
@[simp] theorem blockExec_decChr (c : Byte) : blockExec (.decChr c) b = (b.setDec (decStep b.decRegs c), none) := rfl
@[simp] theorem blockExec_decGet : blockExec .decGet b = (b, some (.dec32 (decValue b.acc b.neg))) := rfl

end

@[simp] theorem fieldStart_acc (len : Byte) : (fieldStart len).acc = 0#32 := rfl
@[simp] theorem fieldStart_neg (len : Byte) : (fieldStart len).neg = false := rfl
@[simp] theorem fieldStart_rem (len : Byte) : (fieldStart len).rem = len := rfl
@[simp] theorem fieldStart_first (len : Byte) : (fieldStart len).first = true := rfl

/-- The whole state after a completed command, from `exec_eq`. -/
theorem eq_after_of_exec {i : Instr} {s t : State} (h : exec i s = .next t) : t = s.after (blockExec i s.block) :=
  (Host.Outcome.next.inj ((exec_eq i s).symm.trans h)).symm

/-- Everything a step can do to the block: nothing, a reset, or the effect of the command presented. -/
theorem step_block_cases {s t : State} (h : step s = .next t) :
    t.block = s.block ∨ (s.resetRequested ∧ t.block = BlockState.reset) ∨
      ∃ i, s.nextCommandIs i ∧ t.block = (blockExec i s.block).1 := by
  obtain ⟨-, rfl⟩ | ⟨w, i, rest, hs, hd, he⟩ | ⟨e, rest, hs, he, rfl⟩ := step_cases h
  · exact .inl rfl
  · exact .inr (.inr ⟨i, ⟨w, rest, hs, hd⟩, by simp [eq_after_of_exec he]⟩)
  · obtain rfl | ⟨w, rfl⟩ := he
    · exact .inr (.inl ⟨⟨rest, .inl hs⟩, rfl⟩)
    · exact .inr (.inl ⟨⟨rest, .inr ⟨w, hs⟩⟩, rfl⟩)

/-! ## The invariants of R23 -/

/-- Invariant (a) of 10_state.md R23 on the registers of unit DEC; (b) is its contrapositive for NEG. -/
def DecRegs.Inv (d : DecRegs) : Prop := d.first = true → d.acc = 0#32 ∧ d.neg = false

theorem State.inv_iff (s : State) : s.Inv ↔ s.block.decRegs.Inv := by
  refine ⟨And.left, fun h => ⟨h, fun hneg => ?_⟩⟩
  by_contra hfirst
  have hclear : s.neg = false := (h (Bool.eq_true_of_not_eq_false hfirst)).2
  simp [hneg] at hclear

theorem fieldStart_inv (len : Byte) : (fieldStart len).Inv := fun _ => ⟨rfl, rfl⟩

theorem reset_decRegs_inv : BlockState.reset.decRegs.Inv := fieldStart_inv 0#8

/-- FIRST survives a character only where REM is 0, and then nothing changes. -/
theorem decStep_keeps_inv {d : DecRegs} (c : Byte) (h : d.Inv) : (decStep d c).Inv := by
  intro hfirst
  rw [decStep_first, Bool.and_eq_true] at hfirst
  rw [decStep_exhausted c hfirst.2]
  exact h hfirst.1

theorem blockExec_keeps_inv {b : BlockState} (i : Instr) (h : b.decRegs.Inv) : (blockExec i b).1.decRegs.Inv := by
  cases i with
  | crcInit => exact h
  | crcUpd x => exact h
  | crcGet => exact h
  | decInit len => exact fieldStart_inv len
  | decChr c => exact decStep_keeps_inv c h
  | decGet => exact h

/-- Settles O8. -/
theorem resetStateMeetsRegisterInvariants : Obligations.ResetStateMeetsRegisterInvariants :=
  (State.inv_iff State.reset).mpr reset_decRegs_inv

/-- Settles O9, by what a step can do to the block. -/
theorem everyStepKeepsRegisterInvariants : Obligations.EveryStepKeepsRegisterInvariants := by
  intro s t hinv hstep
  rw [State.inv_iff] at hinv ⊢
  obtain hsame | ⟨-, hreset⟩ | ⟨i, -, hexec⟩ := step_block_cases hstep
  · rwa [hsame]
  · rw [hreset]
    exact reset_decRegs_inv
  · rw [hexec]
    exact blockExec_keeps_inv i hinv

end Sys2Proof.Machine
end

section
/-! SUPPORT. The registers one by one (10_state.md R10 to R14): which command writes each and under which condition. -/
namespace Sys2Proof.Machine

/-! ## Which commands write which register -/

section
variable {i : Instr} {b : BlockState}

theorem crc_writers (h : (blockExec i b).1.crc ≠ b.crc) : i = .crcInit ∨ ∃ x, i = .crcUpd x := by
  cases i <;> simp_all

/-- A command that changes a register of unit DEC is DEC.INIT, or DEC.CHR while REM is not 0. -/
theorem dec_writers (h : (blockExec i b).1.decRegs ≠ b.decRegs) :
    (∃ len, i = .decInit len) ∨ ∃ c, i = .decChr c ∧ b.rem ≠ 0#8 := by
  cases i with
  | decInit len => exact .inl ⟨len, rfl⟩
  | decChr c =>
    refine .inr ⟨c, rfl, fun hrem => h ?_⟩
    exact decStep_exhausted c ((exhausted_iff b.rem).mpr hrem)
  | crcInit => exact absurd rfl h
  | crcUpd x => exact absurd rfl h
  | crcGet => exact absurd rfl h
  | decGet => exact absurd rfl h

theorem acc_writers (h : (blockExec i b).1.acc ≠ b.acc) :
    (∃ len, i = .decInit len) ∨ ∃ c, i = .decChr c ∧ 0x30 ≤ c.toNat ∧ c.toNat ≤ 0x39 ∧ b.rem ≠ 0#8 := by
  obtain hinit | ⟨c, rfl, hrem⟩ := dec_writers (fun hd => h (congrArg DecRegs.acc hd))
  · exact .inl hinit
  · have hdigit : isDigit c = true := by
      by_contra hnot
      exact h (by simp [decStep_acc, hnot])
    obtain ⟨hlo, hhi⟩ := (isDigit_iff c).mp hdigit
    exact .inr ⟨c, rfl, hlo, hhi, hrem⟩

theorem neg_writers (h : (blockExec i b).1.neg ≠ b.neg) :
    (∃ len, i = .decInit len) ∨ i = .decChr 0x2D#8 ∧ b.rem ≠ 0#8 ∧ b.first = true := by
  obtain hinit | ⟨c, rfl, hrem⟩ := dec_writers (fun hd => h (congrArg DecRegs.neg hd))
  · exact .inl hinit
  · have hminus : leadingMinus b.first c = true := by
      by_contra hnot
      exact h (by simp [decStep_neg, hnot])
    obtain ⟨hfirst, rfl⟩ := (leadingMinus_iff b.first c).mp hminus
    exact .inr ⟨rfl, hrem, hfirst⟩

end

/-- A reading `f` of the block that a step changes was changed by a reset or by a command with the property `W` that
every command changing it has. -/
theorem step_writers {α : Type} {s t : State} {f : BlockState → α} {W : Instr → Prop} (hstep : step s = .next t)
    (hW : ∀ i, f (blockExec i s.block).1 ≠ f s.block → W i) (hne : f t.block ≠ f s.block) :
    s.resetRequested ∨ ∃ i, s.nextCommandIs i ∧ W i := by
  obtain hsame | ⟨hreset, -⟩ | ⟨i, hi, hexec⟩ := step_block_cases hstep
  · exact absurd (congrArg f hsame) hne
  · exact .inl hreset
  · exact .inr ⟨i, hi, hW i (hexec ▸ hne)⟩

/-- `step_writers` for REM and FIRST, which DEC.INIT and any DEC.CHR of an unfinished field write. -/
theorem step_dec_writers {α : Type} {s t : State} {f : DecRegs → α} (hstep : step s = .next t)
    (hne : f t.block.decRegs ≠ f s.block.decRegs) :
    s.resetRequested ∨ (∃ len, s.nextCommandIs (.decInit len)) ∨ ∃ c, s.nextCommandIs (.decChr c) ∧ s.rem ≠ 0#8 := by
  obtain hreset | ⟨i, hi, ⟨len, rfl⟩ | ⟨c, rfl, hrem⟩⟩ := step_writers (f := fun b => f b.decRegs) hstep
    (fun i h => dec_writers (fun hd => h (congrArg f hd))) hne
  · exact .inl hreset
  · exact .inr (.inl ⟨len, hi⟩)
  · exact .inr (.inr ⟨c, hi, hrem⟩)

/-- Settles O2, register by register. -/
theorem stepChangesRegisterOnlyByItsWriters : Obligations.StepChangesRegisterOnlyByItsWriters := by
  intro s t hstep
  refine ⟨fun hne => ?_, fun hne => ?_, fun hne => ?_, step_dec_writers (f := DecRegs.rem) hstep,
    step_dec_writers (f := DecRegs.first) hstep⟩
  · obtain hreset | ⟨i, hi, rfl | ⟨x, rfl⟩⟩ := step_writers hstep (fun _ => crc_writers) hne
    · exact .inl hreset
    · exact .inr (.inl hi)
    · exact .inr (.inr ⟨x, hi⟩)
  · obtain hreset | ⟨i, hi, ⟨len, rfl⟩ | ⟨c, rfl, hc⟩⟩ := step_writers hstep (fun _ => acc_writers) hne
    · exact .inl hreset
    · exact .inr (.inl ⟨len, hi⟩)
    · exact .inr (.inr ⟨c, hi, hc⟩)
  · obtain hreset | ⟨i, hi, ⟨len, rfl⟩ | ⟨rfl, hc⟩⟩ := step_writers hstep (fun _ => neg_writers) hne
    · exact .inl hreset
    · exact .inr (.inl ⟨len, hi⟩)
    · exact .inr (.inr ⟨hi, hc⟩)

/-! ## REM -/

theorem decStep_rem_toNat (d : DecRegs) (c : Byte) : (decStep d c).rem.toNat = d.rem.toNat - 1 := by
  rw [decStep_rem]
  split
  next h => simp [(exhausted_iff d.rem).mp h]
  next h =>
    have hrem : d.rem ≠ 0#8 := fun h0 => h ((exhausted_iff d.rem).mpr h0)
    bv_omega

theorem charsFed_cons (i : Instr) (is : List Instr) : charsFed (i :: is) = charsFed [i] ++ charsFed is := by
  cases i <;> rfl

/-- A command other than DEC.INIT takes from REM the characters it feeds. -/
theorem blockExec_rem_toNat {i : Instr} (b : BlockState) (hi : ∀ len, i ≠ .decInit len) :
    (blockExec i b).1.rem.toNat = b.rem.toNat - (charsFed [i]).length := by
  cases i with
  | decInit len => exact absurd rfl (hi len)
  | decChr c => exact decStep_rem_toNat b.decRegs c
  | crcInit => rfl
  | crcUpd x => rfl
  | crcGet => rfl
  | decGet => rfl

theorem runCommands_rem {is : List Instr} (s : State) (his : ∀ len, .decInit len ∉ is) :
    ∃ t, runCommands is s = .next t ∧ t.rem.toNat = s.rem.toNat - (charsFed is).length := by
  induction is generalizing s with
  | nil => exact ⟨s, rfl, rfl⟩
  | cons i is ih =>
    have hi : ∀ len, i ≠ .decInit len := fun len h => his len (h ▸ List.mem_cons_self)
    obtain ⟨t, ht, hrem⟩ := ih (s.after (blockExec i s.block)) (fun len h => his len (List.mem_cons_of_mem i h))
    refine ⟨t, (runCommands_cons i is s).trans ht, ?_⟩
    rw [hrem, State.after_block, blockExec_rem_toNat s.block hi, charsFed_cons i is, List.length_append, Nat.sub_sub]

theorem exec_decChr_of_exhausted (c : Byte) {s : State} (h : s.rem = 0#8) :
    exec (.decChr c) s = .next (s.yielding none) := by
  have hkeep : decStep s.block.decRegs c = s.block.decRegs := decStep_exhausted c ((exhausted_iff s.rem).mpr h)
  rw [exec_eq, blockExec_decChr, hkeep]
  rfl

/-- Settles O3: one command by its case, a list by induction on it. -/
theorem remCountsCharactersLeftAndNeverWraps : Obligations.RemCountsCharactersLeftAndNeverWraps := by
  refine ⟨fun i s => ⟨_, exec_eq i s, ?_⟩, fun c s h => exec_decChr_of_exhausted c h, fun len is s his => ?_⟩
  · cases i with
    | decInit len => exact .inl ⟨len, rfl, rfl⟩
    | decChr c => exact .inr (.inl ⟨c, rfl, decStep_rem_toNat s.block.decRegs c⟩)
    | crcInit => exact .inr (.inr ⟨nofun, nofun, rfl⟩)
    | crcUpd x => exact .inr (.inr ⟨nofun, nofun, rfl⟩)
    | crcGet => exact .inr (.inr ⟨nofun, nofun, rfl⟩)
    | decGet => exact .inr (.inr ⟨nofun, nofun, rfl⟩)
  · rw [runCommands_cons]
    exact runCommands_rem _ his

/-! ## NEG and FIRST -/

section
variable (i : Instr) (b : BlockState)

theorem neg_set_iff : (b.neg = false ∧ (blockExec i b).1.neg = true) ↔
    (b.neg = false ∧ i = .decChr 0x2D#8 ∧ b.rem ≠ 0#8 ∧ b.first = true) := by
  constructor
  · rintro ⟨hclear, hset⟩
    obtain ⟨len, rfl⟩ | hminus := neg_writers (i := i) (b := b) (by simp [hclear, hset])
    · simp at hset
    · exact ⟨hclear, hminus⟩
  · rintro ⟨hclear, rfl, hrem, hfirst⟩
    have hlead : leadingMinus b.first 0x2D#8 = true := (leadingMinus_iff _ _).mpr ⟨hfirst, rfl⟩
    exact ⟨hclear, by simp [decStep_neg, hlead, exhausted, hrem]⟩

theorem neg_cleared_iff : (b.neg = true ∧ (blockExec i b).1.neg = false) ↔
    (b.neg = true ∧ ∃ len, i = .decInit len) := by
  cases i <;> simp +contextual [decStep_neg]

theorem first_cleared_iff : (b.first = true ∧ (blockExec i b).1.first = false) ↔
    (b.first = true ∧ b.rem ≠ 0#8 ∧ ∃ c, i = .decChr c) := by
  cases i <;> simp +contextual [decStep_first, exhausted]

theorem first_set_iff : (b.first = false ∧ (blockExec i b).1.first = true) ↔
    (b.first = false ∧ ∃ len, i = .decInit len) := by
  cases i <;> simp +contextual [decStep_first]

end

/-- Settles O4. -/
theorem flagsNegAndFirstChangeAsStated : Obligations.FlagsNegAndFirstChangeAsStated := fun i s =>
  ⟨_, exec_eq i s, neg_set_iff i s.block, neg_cleared_iff i s.block, first_cleared_iff i s.block,
    first_set_iff i s.block⟩

end Sys2Proof.Machine
end

section
/-! SUPPORT. What a command reads (10_state.md R19, R20): the registers decide every result, each unit's own registers
decide its own, and what a list of commands keeps, with the reset values of R21. -/
namespace Sys2Proof.Machine

/-- Settles O5: the block's run over the words of the commands decides both (00_scope.md R8), and the blocks are
equal. -/
theorem registersDetermineEveryFutureResult : Obligations.RegistersDetermineEveryFutureResult := by
  intro is s s' hsame
  have hblock : s.block = s'.block := (s.sameRegisters_iff s').mp hsame
  obtain ⟨t, ht, hrun⟩ := blockRun_encode is s
  obtain ⟨t', ht', hrun'⟩ := blockRun_encode is s'
  rw [hblock, hrun', Except.ok.injEq, Prod.mk.injEq] at hrun
  obtain ⟨htt, hresults⟩ := hrun
  exact ⟨t, t', ht, ht', (t.sameRegisters_iff t').mpr htt.symm, hresults.symm⟩

/-! ## The registers of one unit -/

/-- Two blocks with the same contents of one unit's registers. -/
def BlockState.agreeOn (u : FunctionalUnit) (b b' : BlockState) : Prop :=
  match u with
  | .crc => b.crc = b'.crc
  | .dec => b.decRegs = b'.decRegs

@[simp] theorem BlockState.agreeOn_crc (b b' : BlockState) : b.agreeOn .crc b' ↔ b.crc = b'.crc := Iff.rfl
@[simp] theorem BlockState.agreeOn_dec (b b' : BlockState) : b.agreeOn .dec b' ↔ b.decRegs = b'.decRegs := Iff.rfl

theorem BlockState.agreeOn_refl (u : FunctionalUnit) (b : BlockState) : b.agreeOn u b := by cases u <;> rfl

theorem BlockState.agreeOn_trans {u : FunctionalUnit} {a b c : BlockState} (hab : a.agreeOn u b)
    (hbc : b.agreeOn u c) : a.agreeOn u c := by
  cases u with
  | crc => exact Eq.trans hab hbc
  | dec => exact Eq.trans hab hbc

theorem State.sameDec_iff (s t : State) : s.sameDec t ↔ s.block.agreeOn .dec t.block := by
  rw [State.sameDec, BlockState.agreeOn_dec, BlockState.decRegs, BlockState.decRegs, DecRegs.mk.injEq]

/-- A command writes no register of the other unit. -/
theorem blockExec_frame {i : Instr} {u : FunctionalUnit} (b : BlockState) (h : i.unit ≠ u) :
    (blockExec i b).1.agreeOn u b := by
  cases u <;> cases i <;> simp_all [Instr.unit]

/-- A command reads no register of the other unit. -/
theorem blockExec_reads {i : Instr} {u : FunctionalUnit} {b b' : BlockState} (hu : i.unit = u)
    (h : b.agreeOn u b') :
    (blockExec i b).1.agreeOn u (blockExec i b').1 ∧ (blockExec i b).2 = (blockExec i b').2 := by
  subst hu
  cases i with
  | crcInit => exact ⟨rfl, rfl⟩
  | crcUpd x =>
    have hcrc : b.crc = b'.crc := h
    simp [Instr.unit, hcrc]
  | crcGet =>
    have hcrc : b.crc = b'.crc := h
    simp [Instr.unit, hcrc]
  | decInit len => exact ⟨rfl, rfl⟩
  | decChr c =>
    have hdec : b.decRegs = b'.decRegs := h
    simp [Instr.unit, hdec]
  | decGet =>
    have hdec : b.decRegs = b'.decRegs := h
    have hacc : b.acc = b'.acc := congrArg DecRegs.acc hdec
    have hneg : b.neg = b'.neg := congrArg DecRegs.neg hdec
    simp [Instr.unit, hdec, hacc, hneg]

theorem blockExec_result_unit {i : Instr} {b : BlockState} {r : Result} (h : r ∈ (blockExec i b).2.toList) :
    r.unit = i.unit := by
  cases i <;> simp_all [Result.unit, Instr.unit]

/-- One command's results of one unit: all of them or none. -/
theorem blockExec_results_filter (i : Instr) (u : FunctionalUnit) (b : BlockState) :
    (blockExec i b).2.toList.filter (·.unit == u) = if i.unit = u then (blockExec i b).2.toList else [] := by
  split
  next h => exact List.filter_eq_self.mpr fun r hr => by simp [blockExec_result_unit hr, h]
  next h => exact List.filter_eq_nil_iff.mpr fun r hr => by simp [blockExec_result_unit hr, h]

/-! ## Interleaving -/

/-- Leaving out the other unit's commands changes neither a unit's registers nor its results. -/
theorem runCommands_filter_unit (u : FunctionalUnit) (is : List Instr) {s s' : State}
    (h : s.block.agreeOn u s'.block) :
    ∃ t t', runCommands is s = .next t ∧ runCommands (is.filter (·.unit == u)) s' = .next t' ∧
      t.block.agreeOn u t'.block ∧
      (resultsOf is s).filter (·.unit == u) = resultsOf (is.filter (·.unit == u)) s' := by
  induction is generalizing s s' with
  | nil => exact ⟨s, s', rfl, rfl, h, rfl⟩
  | cons i is ih =>
    rw [runCommands_cons, resultsOf_cons, List.filter_append, blockExec_results_filter, List.filter_cons]
    by_cases hu : i.unit = u
    · obtain ⟨hregs, hresult⟩ := blockExec_reads hu h
      obtain ⟨t, t', ht, ht', htt, hrs⟩ := ih (s := s.after (blockExec i s.block))
        (s' := s'.after (blockExec i s'.block)) hregs
      refine ⟨t, t', ht, ?_, htt, ?_⟩
      · simpa [hu, runCommands_cons] using ht'
      · simp [hu, resultsOf_cons, hrs, hresult]
    · have hregs : (blockExec i s.block).1.agreeOn u s'.block :=
        BlockState.agreeOn_trans (blockExec_frame s.block hu) h
      simpa [hu] using ih (s := s.after (blockExec i s.block)) hregs

/-- Settles O6: write frame, read frame, and the interleaving once per unit. -/
theorem unitsAreIndependentUnderInterleaving : Obligations.UnitsAreIndependentUnderInterleaving := by
  refine ⟨fun i s => ⟨_, exec_eq i s, fun hu => ?_, fun hu => ?_⟩,
    fun i s s' => ⟨_, _, exec_eq i s, exec_eq i s', fun hu => blockExec_reads hu, fun hu hs => ?_⟩, fun is s => ?_⟩
  · have hne : i.unit ≠ .dec := by simp [hu]
    exact (State.sameDec_iff _ _).mpr (Eq.symm (blockExec_frame s.block hne))
  · have hne : i.unit ≠ .crc := by simp [hu]
    exact blockExec_frame s.block hne
  · rw [State.sameDec_iff] at hs ⊢
    exact blockExec_reads hu hs
  · obtain ⟨t, u, ht, hu, hcrc, hcrcResults⟩ := runCommands_filter_unit .crc is (s.block.agreeOn_refl .crc)
    obtain ⟨t', v, ht', hv, hdec, hdecResults⟩ := runCommands_filter_unit .dec is (s.block.agreeOn_refl .dec)
    obtain rfl : t = t' := Host.Outcome.next.inj (ht.symm.trans ht')
    exact ⟨t, u, v, ht, hu, hv, hcrc, (State.sameDec_iff t v).mpr hdec, hcrcResults, hdecResults⟩

/-! ## What a list of commands keeps -/

/-- A property that each command of a list keeps holds after the list, which completes. -/
theorem runCommands_keeps {P : BlockState → Prop} {is : List Instr} {s : State}
    (hkeep : ∀ i ∈ is, ∀ b, P b → P (blockExec i b).1) (hs : P s.block) :
    ∃ t, runCommands is s = .next t ∧ P t.block := by
  induction is generalizing s with
  | nil => exact ⟨s, rfl, hs⟩
  | cons i is ih =>
    rw [runCommands_cons]
    exact ih (fun j hj => hkeep j (List.mem_cons_of_mem i hj)) (hkeep i List.mem_cons_self s.block hs)

/-- A field of length 0 is over before its first character (10_state.md R21). -/
theorem blockExec_keeps_emptyField {i : Instr} (hi : ∀ len, i = .decInit len → len = 0#8) (b : BlockState)
    (h : b.decRegs = fieldStart 0#8) : (blockExec i b).1.decRegs = fieldStart 0#8 := by
  cases i with
  | decInit len => rw [hi len rfl]; rfl
  | decChr c =>
    have hkeep : decStep b.decRegs c = b.decRegs := decStep_exhausted c (by simp [h, exhausted])
    rw [blockExec_decChr, hkeep]
    exact h
  | crcInit => exact h
  | crcUpd x => exact h
  | crcGet => exact h
  | decGet => exact h

/-- Settles O7. -/
theorem resetValuesAreThoseOfBothInits : Obligations.ResetValuesAreThoseOfBothInits := by
  refine ⟨⟨rfl, rfl, rfl, rfl, rfl⟩, fun s => ⟨_, rfl, rfl, rfl, rfl, rfl, rfl⟩, fun is s hs hlen => ?_, fun s hs => ?_⟩
  · have hstart : s.block.decRegs = fieldStart 0#8 := congrArg BlockState.decRegs ((s.sameRegisters_iff _).mp hs)
    obtain ⟨t, ht, hdec⟩ := runCommands_keeps (P := fun b => b.decRegs = fieldStart 0#8)
      (fun i hi => blockExec_keeps_emptyField fun len h => hlen len (h ▸ hi)) hstart
    have hacc : t.acc = 0#32 := congrArg DecRegs.acc hdec
    have hneg : t.neg = false := congrArg DecRegs.neg hdec
    refine ⟨t.after (blockExec .decGet t.block), ?_, (State.sameDec_iff _ _).mpr hdec, ?_⟩
    · rw [runCommands_append_of_next _ ht, runCommands_cons, runCommands_nil]
    · simp [hacc, hneg]
  · have hcrc : s.crc = 0#16 := hs.1
    refine ⟨_, exec_eq .crcInit s, (State.sameRegisters_iff _ s).mpr ?_⟩
    rw [State.after_block, blockExec_crcInit, ← hcrc, BlockState.setCrc_self]

end Sys2Proof.Machine
end

section
/-! SUPPORT. Splitting a pattern into two. -/
namespace Sys2Proof.Machine

theorem bitVec_append_inj {w v : Nat} {x x' : BitVec w} {y y' : BitVec v} (h : x ++ y = x' ++ y') : x = x' ∧ y = y' := by
  constructor
  · rw [← BitVec.extractLsb'_append_eq_left (a := x) (b := y), h, BitVec.extractLsb'_append_eq_left]
  · rw [← BitVec.extractLsb'_append_eq_right (a := x) (b := y), h, BitVec.extractLsb'_append_eq_right]

theorem exists_bitVec_append_eq {w v : Nat} (z : BitVec (w + v)) : ∃ (x : BitVec w) (y : BitVec v), x ++ y = z :=
  ⟨_, _, BitVec.extractLsb'_append_extractLsb'⟩

end Sys2Proof.Machine
end

section
/-! SUPPORT. The CRC round as a linear bijection (40_crc.md R63, R66), and that two bytes bring any accumulator to any
value. -/
namespace Sys2Proof.Machine

/-! ## One round -/

/-- The reduction as a second summand, so that linearity is linearity of each summand. -/
theorem crcRound_eq_xor (s : CrcWord) :
    crcRound s = (s <<< 1) ^^^ (if s.getLsbD 15 then Config.crcPoly else 0#16) := by
  unfold crcRound
  split
  · rfl
  · rw [BitVec.xor_zero]

theorem crcRound_xor (x y : CrcWord) : crcRound (x ^^^ y) = crcRound x ^^^ crcRound y := by
  have hpoly : (if (x ^^^ y).getLsbD 15 then Config.crcPoly else 0#16) =
      (if x.getLsbD 15 then Config.crcPoly else 0#16) ^^^ (if y.getLsbD 15 then Config.crcPoly else 0#16) := by
    rw [BitVec.getLsbD_xor]
    cases x.getLsbD 15 <;> cases y.getLsbD 15 <;> simp
  rw [crcRound_eq_xor, crcRound_eq_xor x, crcRound_eq_xor y, hpoly, BitVec.shiftLeft_xor_distrib]
  ac_rfl

/-- The bit shifted out is not lost: it is the low bit of the round's value. -/
theorem crcRound_low_bit (s : CrcWord) : (crcRound s).getLsbD 0 = s.getLsbD 15 := by
  rw [crcRound_eq_xor]
  cases s.getLsbD 15 <;> simp [Config.crcPoly]

theorem eq_zero_of_crcRound_eq_zero {s : CrcWord} (h : crcRound s = 0#16) : s = 0#16 := by
  have hhigh : s.getLsbD 15 = false := by
    rw [← crcRound_low_bit, h, BitVec.getLsbD_zero]
  have hsmall : 2 * s.toNat < 2 ^ 16 := BitVec.msb_eq_false_iff_two_mul_lt.mp hhigh
  rw [crcRound_of_high_clear hhigh] at h
  bv_omega

theorem crcRound_injective : Function.Injective crcRound := fun x y h =>
  BitVec.xor_eq_zero_iff.mp (eq_zero_of_crcRound_eq_zero (by rw [crcRound_xor, h, BitVec.xor_self]))

/-! ## Rounds and bytes -/

theorem crcRounds_xor (n : Nat) (x y : CrcWord) : crcRounds n (x ^^^ y) = crcRounds n x ^^^ crcRounds n y := by
  induction n generalizing x y with
  | zero => rfl
  | succ n ih => rw [crcRounds_succ, crcRound_xor, ih]; rfl

theorem crcRounds_injective (n : Nat) : Function.Injective (crcRounds n) := by
  induction n with
  | zero => exact Function.injective_id
  | succ n ih => exact ih.comp crcRound_injective

theorem crcRounds_surjective (n : Nat) : Function.Surjective (crcRounds n) :=
  Finite.surjective_of_injective (crcRounds_injective n)

/-- Eight rounds only move a low byte up: no round meets a set high bit. -/
theorem crcRounds_eight_low (b : Byte) : crcRounds 8 (0#8 ++ b) = byteInHighHalf b := by
  revert b
  decide

/-- Two bytes are 16 rounds over their pattern, the second entering after 8 of them. -/
theorem crcByte_crcByte (s : CrcWord) (a b : Byte) : crcByte (crcByte s a) b = crcRounds 16 (s ^^^ (a ++ b)) := by
  have hhigh : byteInHighHalf a = a ++ 0#8 := by
    revert a
    decide
  have hxor : a ++ b = (a ++ 0#8) ^^^ (0#8 ++ b) := by
    rw [BitVec.xor_append, BitVec.xor_zero, BitVec.zero_xor]
  have hsplit : (a ++ b : CrcWord) = byteInHighHalf a ^^^ (0#8 ++ b) := hxor.trans (by rw [hhigh])
  calc crcByte (crcByte s a) b
      = crcRounds 8 (crcRounds 8 (s ^^^ byteInHighHalf a) ^^^ crcRounds 8 (0#8 ++ b)) := by
        rw [crcRounds_eight_low, crcByte_eq_rounds, crcByte_eq_rounds]
    _ = crcRounds 16 (s ^^^ (a ++ b)) := by
        rw [← crcRounds_xor, ← crcRounds_add, BitVec.xor_assoc, ← hsplit]

/-- Two bytes bring any accumulator to any value: 16 rounds reach it, and the two bytes are the difference. -/
theorem exists_crcByte_crcByte_eq (s v : CrcWord) : ∃ a b : Byte, crcByte (crcByte s a) b = v := by
  obtain ⟨x, hx⟩ := crcRounds_surjective 16 v
  obtain ⟨a, b, hab⟩ := exists_bitVec_append_eq (w := 8) (v := 8) (s ^^^ x)
  refine ⟨a, b, ?_⟩
  rw [crcByte_crcByte, hab, ← BitVec.xor_assoc, BitVec.xor_self, BitVec.zero_xor, hx]

end Sys2Proof.Machine
end

section
/-! SUPPORT. The states a run from reset comes to (10_state.md R23): their blocks are those that commands alone bring
about, and what that gives. -/
namespace Sys2Proof.Machine

/-- What holds at reset, whatever is presented, and is kept by every step holds of every reachable state. -/
theorem Reachable.induct {P : State → Prop} (hreset : ∀ events, P (State.reset.withInput events))
    (hstep : ∀ s t, P s → step s = .next t → P t) {t : State} (h : Reachable t) : P t := by
  obtain ⟨events, n, hrun⟩ := h
  have hP : P (State.reset.withInput events) := hreset events
  generalize State.reset.withInput events = s at hrun hP
  induction n generalizing s with
  | zero => cases hrun; exact hP
  | succ n ih =>
    cases hs : step s with
    | next u => exact ih u ((run_succ_of_next n hs).symm.trans hrun) (hstep s u hP hs)
    | fault r => cases r
    | refused r => cases (run_succ_of_refused n hs).symm.trans hrun

theorem Reachable.inv {t : State} (h : Reachable t) : t.Inv :=
  h.induct (fun _ => resetStateMeetsRegisterInvariants) everyStepKeepsRegisterInvariants

/-- The words of a list of commands, presented at reset, bring the machine to the block that the commands do. -/
theorem exists_reachable_of_runCommands {is : List Instr} {t : State} (h : runCommands is State.reset = .next t) :
    ∃ u, Reachable u ∧ u.block = t.block := by
  obtain ⟨t', ht', hblock⟩ := blockRun_encode is State.reset
  obtain rfl : t = t' := Host.Outcome.next.inj (h.symm.trans ht')
  obtain ⟨u, hu, hut, -⟩ := run_of_blockRun_ok hblock
  exact ⟨u, ⟨_, _, hu⟩, hut⟩

theorem runCommands_concat {is : List Instr} {s t : State} (i : Instr) (h : runCommands is s = .next t) :
    runCommands (is ++ [i]) s = .next (t.after (blockExec i t.block)) := by
  rw [runCommands_append_of_next _ h, runCommands_cons, runCommands_nil]

/-- Steps with nothing presented and resets add no block that commands alone do not bring about. -/
theorem Reachable.exists_runCommands {t : State} (h : Reachable t) :
    ∃ is u, runCommands is State.reset = .next u ∧ u.block = t.block := by
  refine h.induct (P := fun t => ∃ is u, runCommands is State.reset = .next u ∧ u.block = t.block)
    (fun _ => ⟨[], State.reset, rfl, rfl⟩) fun s t hs hstep => ?_
  obtain ⟨is, u, hu, hus⟩ := hs
  obtain hsame | ⟨-, hreset⟩ | ⟨i, -, hexec⟩ := step_block_cases hstep
  · exact ⟨is, u, hu, hus.trans hsame.symm⟩
  · exact ⟨[], State.reset, rfl, hreset.symm⟩
  · exact ⟨is ++ [i], _, runCommands_concat i hu, by rw [State.after_block, hus, hexec]⟩

theorem Reachable.exists_after_command {t : State} (h : Reachable t) (i : Instr) :
    ∃ u, Reachable u ∧ u.block = (blockExec i t.block).1 := by
  obtain ⟨is, s, hs, hst⟩ := h.exists_runCommands
  obtain ⟨u, hu, hblock⟩ := exists_reachable_of_runCommands (runCommands_concat i hs)
  exact ⟨u, hu, by rw [hblock, State.after_block, hst]⟩

/-- Two CRC.UPD bring CRC to any value and leave unit DEC as it is. -/
theorem Reachable.exists_with_crc {t : State} (h : Reachable t) (v : CrcWord) :
    ∃ u, Reachable u ∧ u.block = t.block.setCrc v := by
  obtain ⟨a, b, hv⟩ := exists_crcByte_crcByte_eq t.crc v
  obtain ⟨s, hs, hst⟩ := h.exists_after_command (.crcUpd a)
  obtain ⟨u, hu, hus⟩ := hs.exists_after_command (.crcUpd b)
  refine ⟨u, hu, ?_⟩
  rw [hus, hst, ← hv]
  rfl

/-- Settles O10: the invariants by O9, CRC by two CRC.UPD, REM by a DEC.INIT at reset. -/
theorem reachableStatesMeetInvariantsAndNothingTiesCrc :
    Obligations.ReachableStatesMeetInvariantsAndNothingTiesCrc := by
  refine ⟨fun t ht => ht.inv, fun t ht v => ?_, fun v r => ?_⟩
  · obtain ⟨u, hu, hblock⟩ := ht.exists_with_crc v
    exact ⟨u, hu, by simp [hblock], (State.sameDec_iff u t).mpr (by simp [hblock])⟩
  · have hreset : Reachable State.reset := ⟨[], 0, rfl⟩
    obtain ⟨t, ht, hinit⟩ := hreset.exists_after_command (.decInit r)
    obtain ⟨u, hu, hblock⟩ := ht.exists_with_crc v
    exact ⟨u, hu, by simp [hblock], by simp [hblock, hinit]⟩

end Sys2Proof.Machine
end

section
/-! SUPPORT. The block's state as a 58-bit pattern (10_state.md R10). -/
namespace Sys2Proof.Machine

theorem ofBool_injective : Function.Injective BitVec.ofBool := by decide

theorem ofBool_surjective : Function.Surjective BitVec.ofBool := by decide

/-- Settles O55: a pattern splits, from its low end, into the contents of the five registers in one way. -/
theorem blockStateIsExactlyFiveRegisters : Obligations.BlockStateIsExactlyFiveRegisters := by
  constructor
  · intro b b' h
    obtain ⟨h, hfirst⟩ := bitVec_append_inj h
    obtain ⟨h, hrem⟩ := bitVec_append_inj h
    obtain ⟨h, hneg⟩ := bitVec_append_inj h
    obtain ⟨hcrc, hacc⟩ := bitVec_append_inj h
    exact (BlockState.mk.injEq ..).mpr ⟨hcrc, hacc, ofBool_injective hneg, hrem, ofBool_injective hfirst⟩
  · intro z
    obtain ⟨z, firstBit, rfl⟩ := exists_bitVec_append_eq (w := 57) (v := 1) z
    obtain ⟨z, rem, rfl⟩ := exists_bitVec_append_eq (w := 49) (v := 8) z
    obtain ⟨z, negBit, rfl⟩ := exists_bitVec_append_eq (w := 48) (v := 1) z
    obtain ⟨crc, acc, rfl⟩ := exists_bitVec_append_eq (w := 16) (v := 32) z
    obtain ⟨neg, rfl⟩ := ofBool_surjective negBit
    obtain ⟨first, rfl⟩ := ofBool_surjective firstBit
    exact ⟨⟨crc, acc, neg, rem, first⟩, rfl⟩

end Sys2Proof.Machine
end

section
/-! SUPPORT. The host's stream of commands (20_memory.md R31, R35): presented words run in order, and which commands
issued twice are as issued once. -/
namespace Sys2Proof.Machine

/-! ## Presented commands -/

/-- The first presented word runs its command, and the rest stays presented. -/
theorem step_presenting_cons (i : Instr) (is : List Instr) (s : State) :
    step (s.presenting (i :: is)) = .next ((s.after (blockExec i s.block)).presenting is) :=
  step_of_blockStep_ok rfl (blockStep_of_decode _ (decode_encode i))

/-- Settles O18, by induction on the list of commands. -/
theorem presentedCommandsRunInOrder : Obligations.PresentedCommandsRunInOrder := by
  intro is s
  induction is generalizing s with
  | nil => rfl
  | cons i is ih => rw [List.length_cons, run_succ_of_next _ (step_presenting_cons i is s), ih, runCommands_cons]

/-! ## Commands issued twice -/

/-- A command other than CRC.UPD, and DEC.CHR only where REM is 0, has its effect and its result again. -/
theorem blockExec_idempotent {i : Instr} {b : BlockState} (hupd : ∀ x, i ≠ .crcUpd x)
    (hchr : ∀ c, i = .decChr c → b.rem = 0#8) : blockExec i (blockExec i b).1 = blockExec i b := by
  cases i with
  | crcUpd x => exact absurd rfl (hupd x)
  | decChr c =>
    have hkeep : decStep b.decRegs c = b.decRegs := decStep_exhausted c ((exhausted_iff b.rem).mpr (hchr c rfl))
    simp [hkeep]
  | crcInit => rfl
  | crcGet => rfl
  | decInit len => rfl
  | decGet => rfl

theorem crcByte_left_injective (b : Byte) : Function.Injective (crcByte · b) := fun _ _ h =>
  (BitVec.xor_left_inj _).mp (crcRounds_injective 8 h)

/-- A block that a command issued twice leaves otherwise than once is a state in which it is not idempotent. -/
theorem exists_exec_not_idempotent {i : Instr} {b : BlockState}
    (h : (blockExec i (blockExec i b).1).1 ≠ (blockExec i b).1) :
    ∃ s t, exec i s = .next t ∧ exec i t ≠ .next t := by
  refine ⟨State.reset.withBlock b, _, exec_eq i _, fun htwice => h ?_⟩
  exact (congrArg State.block (eq_after_of_exec htwice)).symm

/-- Settles O19: at reset CRC.UPD of a byte not 0 changes CRC, so by injectivity it does again, and each digit of a
field of two characters changes REM. -/
theorem getsAndInitsAreIdempotent : Obligations.GetsAndInitsAreIdempotent := by
  refine ⟨fun i s hupd hchr => ⟨_, exec_eq i s, ?_⟩, fun i s hget => ⟨_, exec_eq i s, ?_⟩, ⟨0x01#8, ?_⟩, ⟨0x31#8, ?_⟩⟩
  · rw [exec_eq, State.after_after, State.after_block, blockExec_idempotent hupd hchr]
  · obtain rfl | rfl := hget <;> exact (s.sameRegisters_iff _).mpr rfl
  · have hchanges : crcByte 0#16 0x01#8 ≠ 0#16 := by decide
    refine exists_exec_not_idempotent (b := BlockState.reset) fun h => hchanges (crcByte_left_injective 0x01#8 ?_)
    simpa using congrArg BlockState.crc h
  · exact exists_exec_not_idempotent (b := BlockState.reset.setDec (fieldStart 2#8)) (by decide)

end Sys2Proof.Machine
end

section
/-! SUPPORT. What the host feeds to the block for one sentence (20_memory.md R33, R34): what each reading of a line does
with a field at its head, and with a list of fields each closed by a delimiter. -/
namespace Sys2Proof.Machine

theorem lineBuffer_eq_self {as : List Byte} (h : carriageReturn ∉ as) : lineBuffer as = as :=
  List.filter_eq_self.mpr fun _ hc => bne_iff_ne.mpr fun hcr => h (hcr ▸ hc)

/-- The end of line as it is received, with the carriage return that the framer discards (20_memory.md R33). -/
theorem lineBuffer_append_endOfLine {as : List Byte} (h : carriageReturn ∉ as) :
    lineBuffer (as ++ [carriageReturn, terminator]) = as ++ [terminator] := by
  have happend : lineBuffer (as ++ [carriageReturn, terminator]) = lineBuffer as ++ [terminator] :=
    List.filter_append ..
  rw [happend, lineBuffer_eq_self h]

theorem beforeTerminator_append_terminator {as : List Byte} (rest : List Byte) (h : terminator ∉ as) :
    beforeTerminator (as ++ terminator :: rest) = some as := by
  induction as with
  | nil => simp [beforeTerminator]
  | cons c as ih =>
    obtain ⟨hc, has⟩ := List.ne_and_not_mem_of_not_mem_cons h
    simp [beforeTerminator, hc.symm, ih has]

/-! ## One field -/

section
variable {f : List Byte}

theorem throughDelimiter_field (n : Nat) (rest : List Byte) (h : delimiter ∉ f) :
    throughDelimiter (n + 1) (f ++ delimiter :: rest) = (throughDelimiter n rest).map (f ++ delimiter :: ·) := by
  induction f with
  | nil => simp [throughDelimiter]
  | cons c f ih =>
    obtain ⟨hc, hf⟩ := List.ne_and_not_mem_of_not_mem_cons h
    simp [throughDelimiter, hc.symm, ih hf, Function.comp_def]

theorem cutAtDelimiters_field (rest : List Byte) (h : delimiter ∉ f) :
    cutAtDelimiters (f ++ delimiter :: rest) = f :: cutAtDelimiters rest := by
  induction f with
  | nil => simp [cutAtDelimiters]
  | cons c f ih =>
    obtain ⟨hc, hf⟩ := List.ne_and_not_mem_of_not_mem_cons h
    simp [cutAtDelimiters, hc.symm, ih hf]

theorem cutAtDelimiters_eq_singleton (h : delimiter ∉ f) : cutAtDelimiters f = [f] := by
  induction f with
  | nil => rfl
  | cons c f ih =>
    obtain ⟨hc, hf⟩ := List.ne_and_not_mem_of_not_mem_cons h
    simp [cutAtDelimiters, hc.symm, ih hf]

end

/-! ## Delimited fields -/

/-- Fields one after another, each with its delimiter (20_memory.md R33). -/
def delimitedFields (fs : List (List Byte)) : List Byte := fs.flatMap (· ++ [delimiter])

@[simp] theorem delimitedFields_nil : delimitedFields [] = [] := rfl

@[simp] theorem delimitedFields_cons_append (f : List Byte) (fs : List (List Byte)) (rest : List Byte) :
    delimitedFields (f :: fs) ++ rest = f ++ delimiter :: (delimitedFields fs ++ rest) := by
  simp [delimitedFields]

section
variable {fs : List (List Byte)} {last : List Byte}

theorem not_mem_delimitedFields_append {c : Byte} (hc : c ≠ delimiter) (h : ∀ f ∈ fs ++ [last], c ∉ f) :
    c ∉ delimitedFields fs ++ last := by
  simpa [delimitedFields, hc, or_imp, forall_and] using h

theorem throughDelimiter_delimitedFields (rest : List Byte) (h : ∀ f ∈ fs, delimiter ∉ f) :
    throughDelimiter fs.length (delimitedFields fs ++ rest) = some (delimitedFields fs) := by
  induction fs with
  | nil => simp [throughDelimiter]
  | cons f fs ih =>
    obtain ⟨hf, hfs⟩ := List.forall_mem_cons.mp h
    rw [delimitedFields_cons_append, List.length_cons, throughDelimiter_field _ _ hf, ih hfs]
    simp [delimitedFields]

theorem cutAtDelimiters_delimitedFields (h : ∀ f ∈ fs ++ [last], delimiter ∉ f) :
    cutAtDelimiters (delimitedFields fs ++ last) = fs ++ [last] := by
  induction fs with
  | nil => exact cutAtDelimiters_eq_singleton (h last List.mem_cons_self)
  | cons f fs ih =>
    obtain ⟨hf, hfs⟩ := List.forall_mem_cons.mp h
    rw [delimitedFields_cons_append, cutAtDelimiters_field _ hf, ih hfs, List.cons_append]

end

/-- Settles O53: the range is three delimited fields, and the line is these, the fourth field and the end of line. -/
theorem sentenceRangeAndFieldsAreAsStated : Obligations.SentenceRangeAndFieldsAreAsStated := by
  intro command ident value checksum hclean range line
  have hdelim : ∀ f ∈ [command, ident, value] ++ [checksum], delimiter ∉ f := fun f hf hc => (hclean f hf _ hc).1 rfl
  have hterm : ∀ f ∈ [command, ident, value] ++ [checksum], terminator ∉ f := fun f hf hc => (hclean f hf _ hc).2.1 rfl
  have hcr : ∀ f ∈ [command, ident, value] ++ [checksum], carriageReturn ∉ f :=
    fun f hf hc => (hclean f hf _ hc).2.2 rfl
  have hrange : range = delimitedFields [command, ident, value] := by simp [range, delimitedFields, delimiter]
  have hline : line = range ++ checksum ++ [terminator] :=
    lineBuffer_append_endOfLine (hrange ▸ not_mem_delimitedFields_append (by decide) hcr)
  refine ⟨hline, ?_, ?_⟩
  · rw [hline, hrange, List.append_assoc]
    exact throughDelimiter_delimitedFields _ fun f hf => hdelim f (List.mem_append_left _ hf)
  · rw [hline, hrange, sentenceFields,
      beforeTerminator_append_terminator _ (not_mem_delimitedFields_append (by decide) hterm), Option.map_some,
      cutAtDelimiters_delimitedFields hdelim]
    rfl

end Sys2Proof.Machine
end

section
/-! SUPPORT. The decoder read by fields (30_encoding.md R40, R42, R44), with the statements about the opcode map, the
match-and-mask table and STRICT_ARG. -/
namespace Sys2Proof

/-! ## The fields as numbers -/

theorem argField_toNat (w : CmdWord) : (argField w).toNat = w.toNat % 256 := by
  rw [argField, BitVec.extractLsb'_toNat, Nat.shiftRight_zero]

theorem opField_eq_iff (w : CmdWord) (op : BitVec 4) : opField w = op ↔ w.toNat / 256 = op.toNat := by
  rw [← BitVec.toNat_inj, opField_toNat]

theorem argField_eq_iff (w : CmdWord) (arg : Byte) : argField w = arg ↔ arg.toNat = w.toNat % 256 := by
  rw [← BitVec.toNat_inj, argField_toNat, eq_comm]

theorem wordOf_toNat (op : BitVec 4) (arg : Byte) : (wordOf op arg).toNat = op.toNat * 256 + arg.toNat := by
  have hop : (wordOf op arg).toNat / 256 = op.toNat := (opField_eq_iff _ op).mp (opField_wordOf op arg)
  have harg : arg.toNat = (wordOf op arg).toNat % 256 := (argField_eq_iff _ arg).mp (argField_wordOf op arg)
  omega

/-! ## Which words are a command -/

theorem withoutOperand_eq_ok_iff (strict : Bool) (w : CmdWord) (i j : Instr) :
    withoutOperand strict w i = .ok j ↔ i = j ∧ (strict = true → argField w = 0#8) := by
  unfold withoutOperand
  cases strict <;> by_cases h : argField w = 0#8 <;> simp [h]

/-- Only the `arg` of a command that takes an operand is read, or under STRICT_ARG that of every command. -/
theorem decodeWith_eq_ok_iff (strict : Bool) (w : CmdWord) (i : Instr) :
    decodeWith strict w = .ok i ↔
      opField w = i.op ∧ (i.mnemonic.takesOperand = true ∨ strict = true → argField w = i.arg) := by
  unfold decodeWith
  constructor
  · intro h
    split at h
    case h_1 hop | h_3 hop | h_6 hop =>
      obtain ⟨rfl, hstrict⟩ := (withoutOperand_eq_ok_iff ..).mp h
      exact ⟨hop, fun h => h.elim nofun hstrict⟩
    case h_2 hop | h_4 hop | h_5 hop =>
      cases h
      exact ⟨hop, fun _ => rfl⟩
    case h_7 => cases h
  · rintro ⟨hop, harg⟩
    rw [hop]
    cases i with
    | crcInit | crcGet | decGet => exact (withoutOperand_eq_ok_iff ..).mpr ⟨rfl, fun h => harg (.inr h)⟩
    | crcUpd x | decInit x | decChr x =>
      obtain rfl : argField w = x := harg (.inl rfl)
      rfl

theorem decode_eq_ok_iff (w : CmdWord) (i : Instr) :
    decode w = .ok i ↔ opField w = i.op ∧ (i.mnemonic.takesOperand = true → argField w = i.arg) := by
  rw [decode, decodeWith_eq_ok_iff]
  simp [Config.strictArg]

/-- The `arg` that the assembler emits where there is no operand (30_encoding.md R44). -/
theorem arg_eq_zero {i : Instr} (h : i.mnemonic.takesOperand = false) : i.arg = 0#8 := by
  cases i with
  | crcInit | crcGet | decGet => rfl
  | crcUpd b | decInit len | decChr c => cases h

/-- Every word with the `op` of a mnemonic is a command of that mnemonic. -/
theorem exists_decode_of_opField {w : CmdWord} {m : Mnemonic} (h : opField w = m.op) :
    ∃ i, decode w = .ok i ∧ i.mnemonic = m := by
  simp only [decode_eq_ok_iff]
  cases m with
  | crcInit => exact ⟨.crcInit, ⟨h, nofun⟩, rfl⟩
  | crcUpd => exact ⟨.crcUpd (argField w), ⟨h, fun _ => rfl⟩, rfl⟩
  | crcGet => exact ⟨.crcGet, ⟨h, nofun⟩, rfl⟩
  | decInit => exact ⟨.decInit (argField w), ⟨h, fun _ => rfl⟩, rfl⟩
  | decChr => exact ⟨.decChr (argField w), ⟨h, fun _ => rfl⟩, rfl⟩
  | decGet => exact ⟨.decGet, ⟨h, nofun⟩, rfl⟩

/-- Settles O20: the two fields of the canonical word are the command's, and `arg` is 0 where there is no operand. -/
theorem decodeOfEncodeIsTheCommand : Obligations.DecodeOfEncodeIsTheCommand :=
  fun strict i _ => decodeWith_encode strict i

/-- Settles O21: the fields of the word, as numbers, are the command's. -/
theorem decoderReadsTheOpcodeMap : Obligations.DecoderReadsTheOpcodeMap := by
  intro w i
  rw [decode_eq_ok_iff, opField_eq_iff, argField_eq_iff]
  cases i <;> simp [Instr.op, Instr.mnemonic, Mnemonic.op, Mnemonic.takesOperand, Instr.arg]

/-- Settles O25: each word is the canonical word of its command, or has a reserved `op`. -/
theorem sampleWordsDecode : Obligations.SampleWordsDecode :=
  ⟨decode_encode .crcInit, decode_encode (.crcUpd 0x2C#8), decode_encode .crcGet, decode_encode (.decInit 4#8),
    decode_encode (.decChr 0x2D#8), decode_encode .decGet, (decode_eq_error_iff _ _).mpr ⟨rfl, by decide⟩,
    (decode_eq_error_iff _ _).mpr ⟨rfl, by decide⟩, (decode_eq_error_iff _ _).mpr ⟨rfl, by decide⟩⟩

/-! ## The bits of `op` -/

/-- The reserved function 3 leaves only reserved values of `op` (30_encoding.md R46, R47). -/
theorem isReserved_of_function_three {w : CmdWord} (h : (opField w).extractLsb' 0 2 = 3#2) : isReserved w = true := by
  unfold isReserved
  revert h
  generalize opField w = op
  revert op
  decide

/-- Settles O23, command by command. -/
theorem opBitsSelectUnitAndFunction : Obligations.OpBitsSelectUnitAndFunction := by
  refine ⟨fun i => ?_, fun w h => (decode_eq_error_iff w _).mpr ⟨rfl, isReserved_of_function_three h⟩⟩
  cases i <;> simp [Instr.op, Instr.mnemonic, Mnemonic.op, Instr.unit]

/-! ## The match-and-mask table -/

theorem OpcodeRow.fields_of_mem {r : OpcodeRow} (h : r ∈ opcodeRows) :
    r.mask = 0xF00#12 ∧ r.pattern = r.mnemonic.op.setWidth 12 <<< 8 := by
  revert r
  decide

/-- A row of the table is known by its `op`. -/
theorem OpcodeRow.eq_of_op_eq :
    ∀ r ∈ opcodeRows, ∀ r' ∈ opcodeRows, r.mnemonic.op = r'.mnemonic.op → r = r' := by decide

theorem and_opMask (w : CmdWord) : w &&& 0xF00#12 = (opField w).setWidth 12 <<< 8 := by
  apply BitVec.eq_of_getLsbD_eq
  intro i hi
  have hmask : (0xF00#12).getLsbD i = decide (8 ≤ i) := by
    revert i
    decide
  rw [BitVec.getLsbD_and, hmask, BitVec.getLsbD_shiftLeft, BitVec.getLsbD_setWidth, opField, BitVec.getLsbD_extractLsb']
  by_cases h : 8 ≤ i
  · have hlow : i - 8 < 4 := by omega
    simp [h, hlow, hi, Nat.sub_lt_of_lt hi]
  · simp [h]

theorem shiftedOp_inj {op op' : BitVec 4} : op.setWidth 12 <<< 8 = op'.setWidth 12 <<< 8 ↔ op = op' := by
  revert op op'
  decide

/-- A word matches a row exactly where it has the row's `op`. -/
theorem OpcodeRow.matchesWord_iff {r : OpcodeRow} (h : r ∈ opcodeRows) (w : CmdWord) :
    r.matchesWord w = true ↔ opField w = r.mnemonic.op := by
  obtain ⟨hmask, hpattern⟩ := r.fields_of_mem h
  rw [OpcodeRow.matchesWord, hmask, hpattern, beq_iff_eq, and_opMask, shiftedOp_inj]

/-- The reserved words are those with the `op` of no row. -/
theorem isReserved_iff_no_row (w : CmdWord) : isReserved w = true ↔ ∀ r ∈ opcodeRows, opField w ≠ r.mnemonic.op := by
  unfold isReserved
  generalize opField w = op
  revert op
  decide

/-! ## How many words decode -/

/-- Counting a property of the quotient counts each quotient as often as there are remainders. -/
theorem countP_range_mul_div (p : Nat → Bool) (m : Nat) {k : Nat} (hk : 0 < k) :
    (List.range (m * k)).countP (fun n => p (n / k)) = (List.range m).countP p * k := by
  induction m with
  | zero => simp
  | succ m ih =>
    have hblock : (List.range k).countP ((fun n => p (n / k)) ∘ (m * k + ·)) = (List.range k).countP fun _ => p m :=
      List.countP_congr fun x hx => by
        rw [Function.comp_apply, Nat.mul_comm m k, Nat.mul_add_div hk, Nat.div_eq_of_lt (List.mem_range.mp hx), Nat.add_zero]
    rw [Nat.succ_mul, List.range_add, List.countP_append, List.countP_map, ih, hblock, List.range_succ, List.countP_append,
      Nat.add_mul]
    cases h : p m <;> simp [h]

/-- The ten reserved values of `op` (30_encoding.md R47). -/
def reservedOp (n : Nat) : Bool := n == 0x3 || n == 0x7 || decide (0x8 ≤ n)

theorem isReserved_ofNat {n : Nat} (h : n < 4096) : isReserved (BitVec.ofNat 12 n) = reservedOp (n / 256) := by
  rw [Bool.eq_iff_iff, isReserved_iff, BitVec.toNat_ofNat, Nat.mod_eq_of_lt h]
  simp [reservedOp, or_assoc]

theorem decode_isOk (w : CmdWord) : (decode w).isOk = !isReserved w := by
  cases hd : decode w with
  | ok i =>
    have hw : isReserved w = false := by simpa [hd] using decode_eq_error_iff w .reserved
    simp [hw, Except.isOk, Except.toBool]
  | error e =>
    have hw : isReserved w = true := ((decode_eq_error_iff w e).mp hd).2
    simp [hw, Except.isOk, Except.toBool]

theorem countP_words_of_op {f : CmdWord → Bool} {p : Nat → Bool}
    (h : ∀ n < 4096, f (BitVec.ofNat 12 n) = p (n / 256)) :
    (List.range 4096).countP (fun n => f (BitVec.ofNat 12 n)) = (List.range 16).countP p * 256 := by
  rw [← countP_range_mul_div p 16 (by decide)]
  exact List.countP_congr fun n hn => by rw [h n (List.mem_range.mp hn)]

/-- Settles O22: a word matches the row that has its `op`, and each value of `op` is that of 256 words. -/
theorem decoderAgreesWithMatchAndMask : Obligations.DecoderAgreesWithMatchAndMask := by
  refine ⟨rfl, fun r hr => r.fields_of_mem hr, fun w r hr r' hr' hw hw' => ?_, fun w r hr hw => ?_, fun w => ?_, ?_, ?_⟩
  · rw [OpcodeRow.matchesWord_iff hr] at hw
    rw [OpcodeRow.matchesWord_iff hr'] at hw'
    exact OpcodeRow.eq_of_op_eq r hr r' hr' (hw.symm.trans hw')
  · exact exists_decode_of_opField ((OpcodeRow.matchesWord_iff hr w).mp hw)
  · rw [decode_eq_error_iff, isReserved_iff_no_row, eq_self, true_and]
    exact forall₂_congr fun r hr => by rw [← Bool.not_eq_true, OpcodeRow.matchesWord_iff hr]
  · rw [countP_words_of_op (f := fun w => (decode w).isOk) (p := fun op => !reservedOp op) fun n hn => by
      rw [decode_isOk, isReserved_ofNat hn]]
    decide
  · rw [countP_words_of_op fun n hn => isReserved_ofNat hn]
    decide

/-! ## STRICT_ARG -/

/-- STRICT_ARG only refuses words of the operand-less commands with `arg` not 0 (30_encoding.md R44). -/
theorem withoutOperand_strict (w : CmdWord) (i : Instr) :
    withoutOperand true w i = withoutOperand false w i ∨
      withoutOperand true w i = .error .argNotZero ∧ argField w ≠ 0#8 ∧ withoutOperand false w i = .ok i := by
  by_cases h : argField w = 0#8 <;> simp [withoutOperand, h]

theorem decodeWith_strict (w : CmdWord) :
    decodeWith true w = decodeWith false w ∨
      decodeWith true w = .error .argNotZero ∧ argField w ≠ 0#8 ∧
        ∃ i, decodeWith false w = .ok i ∧ i.mnemonic.takesOperand = false := by
  unfold decodeWith
  split
  case h_1 | h_3 | h_6 =>
    obtain h | ⟨herror, harg, hok⟩ := withoutOperand_strict w _
    · exact .inl h
    · exact .inr ⟨herror, harg, _, hok, rfl⟩
  all_goals exact .inl rfl

/-- Settles O24: by the decoder read by fields, and by what STRICT_ARG changes. -/
theorem operandlessCommandsIgnoreArg : Obligations.OperandlessCommandsIgnoreArg := by
  refine ⟨fun w h => ?_, fun w h => ?_, fun w h => ?_, ⟨rfl, rfl, rfl⟩, fun w => rfl, fun w => ?_,
    fun w i hi harg hok => ?_⟩
  · exact (decode_eq_ok_iff w .crcInit).mpr ⟨h, nofun⟩
  · exact (decode_eq_ok_iff w .crcGet).mpr ⟨h, nofun⟩
  · exact (decode_eq_ok_iff w .decGet).mpr ⟨h, nofun⟩
  · refine (decodeWith_strict w).imp_right fun ⟨herror, harg, i, hok, hi⟩ => ⟨herror, harg, ?_⟩
    cases i with
    | crcInit => exact .inl hok
    | crcGet => exact .inr (.inl hok)
    | decGet => exact .inr (.inr hok)
    | crcUpd b | decInit len | decChr c => cases hi
  · obtain hsame | ⟨herror, -⟩ := decodeWith_strict w
    · have hzero : argField w = i.arg := ((decodeWith_eq_ok_iff true w i).mp (hsame.trans hok)).2 (.inr rfl)
      exact absurd (hzero.trans (arg_eq_zero hi)) harg
    · exact herror

end Sys2Proof
end

section
/-! SUPPORT. Which steps are refused (30_encoding.md R47, 60_exceptions.md R93). -/
namespace Sys2Proof.Machine

theorem step_eq_refused_iff (s : State) (r : Refusal) :
    step s = .refused r ↔ ∃ w rest, s.input = .command w :: rest ∧ r = .reservedWord w ∧ isReserved w = true := by
  constructor
  · intro h
    cases hs : s.input with
    | nil => cases (step_nothing hs).symm.trans h
    | cons e rest =>
      cases hb : blockStep s.block e with
      | ok o => cases (step_of_blockStep_ok hs hb).symm.trans h
      | error r' =>
        obtain rfl : r' = r := Host.Outcome.refused.inj ((step_of_blockStep_error hs hb).symm.trans h)
        obtain ⟨w, rfl, hr⟩ := (blockStep_eq_error_iff _ e r').mp hb
        exact ⟨w, rest, rfl, hr⟩
  · rintro ⟨w, rest, hs, hr⟩
    exact step_of_blockStep_error hs ((blockStep_eq_error_iff _ _ r).mpr ⟨w, rfl, hr⟩)

/-- Settles O16: a refusal of the step is one of the block's; the fault type is empty. -/
theorem stepRefusesExactlyReservedWords : Obligations.StepRefusesExactlyReservedWords := by
  refine ⟨fun s r => ?_, fun s r n => run_succ_of_refused n, fun s => ?_⟩
  · simp only [step_eq_refused_iff, isReserved_iff]
  · cases step s with
    | next t => exact .inl ⟨t, rfl⟩
    | fault r => cases r
    | refused r => exact .inr ⟨r, rfl⟩

end Sys2Proof.Machine
end

section
/-! SUPPORT. The assembler (30_encoding.md R49): which lines assemble, and to which words. -/
namespace Sys2Proof.Machine

theorem wellFormed_without_operand (m : Mnemonic) :
    AsmCommand.wellFormed ⟨m, none⟩ = true ↔ m.takesOperand = false := by
  simp [AsmCommand.wellFormed, AsmCommand.operandPresent, AsmCommand.operandAbsent, AsmCommand.operandInRange]

theorem wellFormed_with_operand (m : Mnemonic) (n : Nat) :
    AsmCommand.wellFormed ⟨m, some n⟩ = true ↔ m.takesOperand = true ∧ n ≤ 255 := by
  simp [AsmCommand.wellFormed, AsmCommand.operandPresent, AsmCommand.operandAbsent, AsmCommand.operandInRange,
    Nat.lt_succ_iff]

theorem assemble_eq_ok_iff (a : AsmCommand) (w : CmdWord) :
    assemble a = .ok w ↔ a.wellFormed = true ∧ w = wordOf a.mnemonic.op (BitVec.ofNat 8 (a.operand.getD 0)) := by
  unfold assemble
  split
  next h => simp [h, eq_comm]
  next h => simp [h]

/-- The operand of a line that assembles fits the `arg` field. -/
theorem operand_lt_of_wellFormed {a : AsmCommand} (h : a.wellFormed = true) : a.operand.getD 0 < 256 := by
  obtain ⟨m, _ | n⟩ := a
  · exact Nat.zero_lt_succ 255
  · exact Nat.lt_succ_of_le ((wellFormed_with_operand m n).mp h).2

theorem asmOf_of_no_operand {i : Instr} (h : i.mnemonic.takesOperand = false) : asmOf i = ⟨i.mnemonic, none⟩ := by
  simp [asmOf, h]

theorem asmOf_of_operand {i : Instr} (h : i.mnemonic.takesOperand = true) :
    asmOf i = ⟨i.mnemonic, some i.arg.toNat⟩ := by
  simp [asmOf, h]

/-- The line that spells a command assembles: it has an operand exactly where the command has one, its `arg`. -/
theorem assemble_asmOf (i : Instr) : assemble (asmOf i) = .ok (encode i) := by
  rw [assemble_eq_ok_iff]
  cases hi : i.mnemonic.takesOperand with
  | false =>
    rw [asmOf_of_no_operand hi, wellFormed_without_operand, encode, arg_eq_zero hi]
    exact ⟨hi, rfl⟩
  | true =>
    rw [asmOf_of_operand hi, wellFormed_with_operand, Option.getD_some, BitVec.ofNat_toNat, BitVec.setWidth_eq]
    exact ⟨⟨hi, Nat.le_of_lt_succ i.arg.isLt⟩, rfl⟩

/-- Settles O26: the operand of a line that assembles fits the `arg` field, so the word is the two fields side by side. -/
theorem assemblerEmitsCanonicalWords : Obligations.AssemblerEmitsCanonicalWords := by
  refine ⟨fun a => ?_, fun a w h => ?_, assemble_asmOf⟩
  · obtain ⟨m, _ | n⟩ := a
    · simpa [assemble_eq_ok_iff] using wellFormed_without_operand m
    · simpa [assemble_eq_ok_iff] using wellFormed_with_operand m n
  · obtain ⟨hwf, rfl⟩ := (assemble_eq_ok_iff a w).mp h
    refine ⟨?_, exists_decode_of_opField (opField_wordOf _ _)⟩
    rw [wordOf_toNat, BitVec.toNat_ofNat, Nat.mod_eq_of_lt (operand_lt_of_wellFormed hwf)]

end Sys2Proof.Machine
end

section
/-! SUPPORT. The host-side macros (30_encoding.md R50, R51): what a list of CRC.UPD or of DEC.CHR does to the block, and
the results of the expansions. -/
namespace Sys2Proof.Machine

/-! ## Absorbing a list -/

theorem runCommands_map_crcUpd (bs : List Byte) (s : State) : ∃ t, runCommands (bs.map .crcUpd) s = .next t ∧
    t.block = s.block.setCrc (crcFold s.crc bs) := by
  induction bs generalizing s with
  | nil => exact ⟨s, rfl, rfl⟩
  | cons b bs ih =>
    obtain ⟨t, ht, hblock⟩ := ih (s.after (blockExec (.crcUpd b) s.block))
    exact ⟨t, (runCommands_cons _ _ s).trans ht, hblock⟩

theorem runCommands_map_decChr (cs : List Byte) (s : State) : ∃ t, runCommands (cs.map .decChr) s = .next t ∧
    t.block = s.block.setDec (decFold s.block.decRegs cs) := by
  induction cs generalizing s with
  | nil => exact ⟨s, rfl, rfl⟩
  | cons c cs ih =>
    obtain ⟨t, ht, hblock⟩ := ih (s.after (blockExec (.decChr c) s.block))
    exact ⟨t, (runCommands_cons _ _ s).trans ht, hblock⟩

/-- CRC.INIT, the bytes, CRC.GET: the result is their CRC, and unit DEC stays as it is. -/
theorem runCommands_crcRange (bs : List Byte) (s : State) :
    ∃ t, runCommands (.crcInit :: bs.map .crcUpd ++ [.crcGet]) s = .next t ∧
      t.result = some (.crc16 (crcFold 0#16 bs)) ∧ s.sameDec t := by
  obtain ⟨t, ht, hblock⟩ := runCommands_map_crcUpd bs (s.after (blockExec .crcInit s.block))
  refine ⟨_, runCommands_concat .crcGet ((runCommands_cons _ _ s).trans ht), ?_, (s.sameDec_iff _).mpr ?_⟩
  · simp [hblock]
  · simp [hblock]

/-- DEC.INIT, the characters, DEC.GET: the result is the value of the registers after them. -/
theorem runCommands_decField (len : Byte) (cs : List Byte) (s : State) :
    ∃ t, runCommands (.decInit len :: cs.map .decChr ++ [.decGet]) s = .next t ∧
      t.result = some (.dec32 (decValue (decFold (fieldStart len) cs).acc (decFold (fieldStart len) cs).neg)) := by
  obtain ⟨t, ht, hblock⟩ := runCommands_map_decChr cs (s.after (blockExec (.decInit len) s.block))
  refine ⟨_, runCommands_concat .decGet ((runCommands_cons _ _ s).trans ht), ?_⟩
  simp [hblock]

/-! ## Characters beyond the field -/

theorem decFold_rem_toNat (d : DecRegs) (cs : List Byte) : (decFold d cs).rem.toNat = d.rem.toNat - cs.length := by
  induction cs generalizing d with
  | nil => rfl
  | cons c cs ih => rw [decFold_cons, ih, decStep_rem_toNat, List.length_cons, Nat.sub_sub, Nat.add_comm]

/-- Characters past the count in REM change nothing (41_decimal.md R71, first case). -/
theorem decFold_take_rem (d : DecRegs) (cs : List Byte) : decFold d (cs.take d.rem.toNat) = decFold d cs := by
  obtain hshort | hlong := Nat.lt_or_ge cs.length d.rem.toNat
  · rw [List.take_of_length_le (Nat.le_of_lt hshort)]
  · have hrem : (decFold d (cs.take d.rem.toNat)).rem.toNat = 0 := by
      rw [decFold_rem_toNat, List.length_take_of_le hlong, Nat.sub_self]
    conv_rhs => rw [← List.take_append_drop d.rem.toNat cs]
    rw [decFold_append, decFold_exhausted _ ((exhausted_iff _).mpr (BitVec.eq_of_toNat_eq hrem))]

theorem decodeDecimal_eq_fold (chars : List Byte) (length : Byte) :
    decodeDecimal chars length =
      decValue (decFold (fieldStart length) chars).acc (decFold (fieldStart length) chars).neg := by
  rw [← decFold_take_rem]
  rfl

theorem decodeDecimal_take (chars : List Byte) {length : Byte} {n : Nat} (h : length.toNat ≤ n) :
    decodeDecimal (chars.take n) length = decodeDecimal chars length := by
  rw [decodeDecimal, List.take_take, Nat.min_eq_left h]
  rfl

/-! ## The macros over a buffer -/

theorem crc16Macro_eq_ok {buf : List Byte} {count : Nat} (h : count ≤ buf.length) :
    crc16Macro buf count = .ok (.crcInit :: (buf.take count).map .crcUpd ++ [.crcGet]) :=
  if_neg (Nat.not_lt.mpr h)

/-- Settles O27: the expansion is a range of bytes between CRC.INIT and CRC.GET. -/
theorem crc16MacroYieldsCrcOfBuffer : Obligations.Crc16MacroYieldsCrcOfBuffer := by
  intro buf count s hcount
  obtain ⟨t, ht, hresult, hdec⟩ := runCommands_crcRange (buf.take count) s
  exact ⟨_, t, crc16Macro_eq_ok hcount, rfl, by simp [hcount], ht, hresult, hdec⟩

theorem decodeExpansion_eq_ok {buf : List Byte} {length chars : Nat} (hlen : length ≤ 255) (h : chars ≤ buf.length) :
    decodeExpansion buf length chars =
      .ok (.decInit (BitVec.ofNat 8 length) :: (buf.take chars).map .decChr ++ [.decGet]) := by
  simp [decodeExpansion, macroLengthWellFormed, Nat.lt_succ_of_le hlen, Nat.not_lt.mpr h]

theorem decodeExpansion_over_255 (buf : List Byte) {length : Nat} (chars : Nat) (h : 255 < length) :
    decodeExpansion buf length chars = .error .lengthOver255 := by
  simp [decodeExpansion, macroLengthWellFormed, Nat.not_lt.mpr (Nat.succ_le_of_lt h)]

/-- The expansion with at least as many characters as the length: the characters beyond it do not count. -/
theorem decodeExpansion_yields {buf : List Byte} {length chars : Nat} (s : State) (hlen : length ≤ 255)
    (hfield : length ≤ chars) (hchars : chars ≤ buf.length) :
    ∃ is t, decodeExpansion buf length chars = .ok is ∧
      is = .decInit (BitVec.ofNat 8 length) :: (buf.take chars).map .decChr ++ [.decGet] ∧ is.length = chars + 2 ∧
      runCommands is s = .next t ∧ t.result = some (.dec32 (decodeDecimal buf (BitVec.ofNat 8 length))) := by
  obtain ⟨t, ht, hresult⟩ := runCommands_decField (BitVec.ofNat 8 length) (buf.take chars) s
  have hfits : (BitVec.ofNat 8 length).toNat ≤ chars := by
    rwa [BitVec.toNat_ofNat, Nat.mod_eq_of_lt (Nat.lt_succ_of_le hlen)]
  rw [← decodeDecimal_eq_fold, decodeDecimal_take buf hfits] at hresult
  exact ⟨_, t, decodeExpansion_eq_ok hlen hchars, rfl, by simp [hchars], ht, hresult⟩

/-- Settles O28: DECODE+1 is the expansion with one character beyond the field. -/
theorem decodeMacrosYieldValueOfField : Obligations.DecodeMacrosYieldValueOfField :=
  ⟨fun _ _ s hlen hbuf => decodeExpansion_yields s hlen le_rfl hbuf,
    fun _ length s hlen hbuf => decodeExpansion_yields s hlen (Nat.le_succ length) hbuf,
    fun buf _ hlen => ⟨decodeExpansion_over_255 buf _ hlen, decodeExpansion_over_255 buf _ hlen⟩⟩

/-! ## The macros over a string literal -/

/-- The bytes that a text of ASCII characters stands for (`literalOperand_quoted`). -/
def literalCodes (text : List Char) : List Byte := text.map fun c => BitVec.ofNat 8 c.toNat

theorem literalCodes_length (text : List Char) : (literalCodes text).length = text.length := List.length_map _

section
variable {text : List Char} (htext : ∀ c ∈ text, c.toNat < 128 ∧ c ≠ doubleQuote)
include htext

theorem crc16LiteralMacro_quoted : crc16LiteralMacro (doubleQuote :: text ++ [doubleQuote]) =
    crc16Macro (literalCodes text) text.length := by
  rw [crc16LiteralMacro, literalOperand_quoted htext, literalCodes]

theorem decodeLiteralMacro_quoted (length : Nat) : decodeLiteralMacro (doubleQuote :: text ++ [doubleQuote]) length =
    decodeMacro (literalCodes text) length := by
  rw [decodeLiteralMacro, literalOperand_quoted htext, literalCodes]

end

/-- Settles O54: the operand is the characters' codes and their number, and in the rule's line it is what follows the
name CRC16. -/
theorem stringLiteralStandsForBufferAndLength : Obligations.StringLiteralStandsForBufferAndLength := by
  have hexample : crc16LiteralMacro "\"5,10,42,\"".toList =
      crc16Macro [0x35#8, 0x2C#8, 0x31#8, 0x30#8, 0x2C#8, 0x34#8, 0x32#8, 0x2C#8] 8 :=
    crc16LiteralMacro_quoted (text := "5,10,42,".toList) (by simp [doubleQuote])
  refine ⟨fun text s htext => ?_, fun text length htext => decodeLiteralMacro_quoted htext length, hexample, hexample⟩
  obtain ⟨t, ht, hresult, -⟩ := runCommands_crcRange (literalCodes text) s
  have hall : (literalCodes text).take text.length = literalCodes text :=
    List.take_of_length_le (literalCodes_length text).le
  refine ⟨literalCodes text, t, rfl, ?_, ht, ?_⟩
  · rw [crc16LiteralMacro_quoted htext, crc16Macro_eq_ok (literalCodes_length text).ge, hall]
  · rw [crc16_eq_fold, hall, hresult]

end Sys2Proof.Machine
end

section
/-! SUPPORT. Rounds and bytes of unit CRC (40_crc.md R56, R57): the round bit by bit, the byte into the high half, the
update's linearity (R66), table form (R67) and injectivity in either argument (R63), with the statements about one round
and one byte. -/
namespace Sys2Proof.Machine

/-! ## One round -/

/-- The taps of the polynomial (00_scope.md R4). -/
theorem crcPoly_getLsbD : ∀ i < 16, Config.crcPoly.getLsbD i = (i == 0 || i == 5 || i == 12) := by decide

theorem crcRound_getLsbD (s : CrcWord) {i : Nat} (hi : i < 16) : (crcRound s).getLsbD i =
    ((decide (0 < i) && s.getLsbD (i - 1)) ^^ (s.getLsbD 15 && (i == 0 || i == 5 || i == 12))) := by
  have hshift : (s <<< 1).getLsbD i = (decide (0 < i) && s.getLsbD (i - 1)) := by
    rw [BitVec.getLsbD_shiftLeft, decide_eq_true hi]
    cases i <;> rfl
  rw [crcRound_eq_xor, BitVec.getLsbD_xor, hshift, ← crcPoly_getLsbD i hi]
  cases s.getLsbD 15 <;> simp

/-- Settles O32. -/
theorem crcRoundShiftsAndReducesBySetHighBit : Obligations.CrcRoundShiftsAndReducesBySetHighBit := by
  refine ⟨fun s => rfl, fun s i hi => crcRound_getLsbD s hi, ?_, ?_, ?_, ?_, ?_⟩ <;> decide

theorem crcRounds_zero_word (n : Nat) : crcRounds n 0#16 = 0#16 := by
  induction n with
  | zero => rfl
  | succ n ih => rw [crcRounds_succ, show crcRound 0#16 = 0#16 by decide, ih]

/-! ## One byte -/

theorem byteInHighHalf_eq_append (b : Byte) : byteInHighHalf b = b ++ 0#8 := by
  revert b
  decide

/-- Entering the byte touches bits 15:8 alone. -/
theorem xor_byteInHighHalf (s : CrcWord) (b : Byte) :
    s ^^^ byteInHighHalf b = (s.extractLsb' 8 8 ^^^ b) ++ s.extractLsb' 0 8 := by
  obtain ⟨hi, lo, rfl⟩ := exists_bitVec_append_eq (w := 8) (v := 8) s
  rw [byteInHighHalf_eq_append, BitVec.extractLsb'_append_eq_left, BitVec.extractLsb'_append_eq_right]
  exact BitVec.xor_append.trans (by rw [BitVec.xor_zero])

theorem append_eq_xor_byteInHighHalf (hi lo : Byte) : hi ++ lo = (0#8 ++ lo) ^^^ byteInHighHalf hi := by
  rw [byteInHighHalf_eq_append]
  exact (BitVec.xor_append.trans (by rw [BitVec.zero_xor, BitVec.xor_zero])).symm

/-- Settles O33: the value before the rounds is the high half XORed with the byte, beside the low half. -/
theorem crcByteXorsHighByteThenEightRounds : Obligations.CrcByteXorsHighByteThenEightRounds := by
  refine ⟨fun s b => ⟨(s.extractLsb' 8 8 ^^^ b) ++ s.extractLsb' 0 8, BitVec.extractLsb'_append_eq_left,
    BitVec.extractLsb'_append_eq_right, ?_⟩, ?_, ?_, ?_, ?_, ?_, ?_, ?_⟩
  · exact congrArg (crcRounds 8) (xor_byteInHighHalf s b)
  all_goals decide

theorem crcByte_zero : crcByte 0#16 0x00#8 = 0#16 := by decide

theorem crcByte_from_zero (b : Byte) : crcByte 0#16 b = crcRounds 8 (byteInHighHalf b) := by
  rw [crcByte_eq_rounds, BitVec.zero_xor]

/-- Eight rounds move the low half up whole, and the high half contributes its table entry (40_crc.md R67). -/
theorem crcByte_eq_table (s : CrcWord) (b : Byte) :
    crcByte s b = (s <<< 8) ^^^ crcByte 0#16 (s.extractLsb' 8 8 ^^^ b) := by
  have hshift : s <<< 8 = byteInHighHalf (s.extractLsb' 0 8) := by
    rw [byteInHighHalf_eq_append]
    exact BitVec.shiftLeft_eq_concat_of_lt (by decide)
  calc crcByte s b
      = crcRounds 8 ((0#8 ++ s.extractLsb' 0 8) ^^^ byteInHighHalf (s.extractLsb' 8 8 ^^^ b)) := by
        rw [crcByte_eq_rounds, xor_byteInHighHalf, append_eq_xor_byteInHighHalf]
    _ = (s <<< 8) ^^^ crcByte 0#16 (s.extractLsb' 8 8 ^^^ b) := by
        rw [crcRounds_xor, crcRounds_eight_low, ← hshift, ← crcByte_from_zero]

/-- Settles O39. -/
theorem crcByteHasTableForm : Obligations.CrcByteHasTableForm := ⟨crcByte_eq_table, by decide⟩

theorem byteInHighHalf_xor (b b' : Byte) : byteInHighHalf (b ^^^ b') = byteInHighHalf b ^^^ byteInHighHalf b' := by
  rw [byteInHighHalf, BitVec.setWidth_xor, BitVec.shiftLeft_xor_distrib]
  rfl

theorem crcByte_xor (s s' : CrcWord) (b b' : Byte) :
    crcByte (s ^^^ s') (b ^^^ b') = crcByte s b ^^^ crcByte s' b' := by
  simp only [crcByte_eq_rounds]
  rw [← crcRounds_xor, byteInHighHalf_xor]
  ac_rfl

theorem crcByte_left_bijective (b : Byte) : Function.Bijective (crcByte · b) :=
  Finite.injective_iff_bijective.mp (crcByte_left_injective b)

theorem byteInHighHalf_injective : Function.Injective byteInHighHalf := fun b b' h => by
  rw [byteInHighHalf_eq_append, byteInHighHalf_eq_append] at h
  exact (bitVec_append_inj h).1

theorem crcByte_right_injective (s : CrcWord) : Function.Injective (crcByte s) := fun _ _ h =>
  byteInHighHalf_injective ((BitVec.xor_right_inj s).mp (crcRounds_injective 8 h))

end Sys2Proof.Machine
end

section
/-! SUPPORT. The CRC of a range (40_crc.md R58): the fold over a list of bytes, and what the laws of one byte give for
it (R63, R65, R66, R68), with the statements about `crc16`. -/
namespace Sys2Proof.Machine

/-! ## The fold -/

theorem crc16_of_length_eq {bytes : List Byte} {count : Nat} (h : bytes.length = count) :
    crc16 bytes count = crcFold 0#16 bytes := by
  rw [crc16_eq_fold, List.take_of_length_le h.le]

theorem crc16_length (bytes : List Byte) : crc16 bytes bytes.length = crcFold 0#16 bytes := crc16_of_length_eq rfl

theorem crc16_pair (a b : Byte) : crc16 [a, b] 2 = crcByte (crcByte 0#16 a) b := rfl

theorem crc16_succ {bytes : List Byte} {count : Nat} (h : count < bytes.length) :
    crc16 bytes (count + 1) = crcByte (crc16 bytes count) bytes[count] := by
  rw [crc16_eq_fold, List.take_succ_eq_append_getElem h, crcFold_append]
  rfl

/-- The rule's example, the range `5,10,42,` (40_crc.md R58), by the accumulator values of 95_test_vectors.md P1. -/
theorem crcFold_example :
    crcFold 0#16 [0x35#8, 0x2C#8, 0x31#8, 0x30#8, 0x2C#8, 0x34#8, 0x32#8, 0x2C#8] = 0xB33D#16 := by
  have h1 : crcByte 0x0000#16 0x35#8 = 0x66F6#16 := by decide
  have h2 : crcByte 0x66F6#16 0x2C#8 = 0x1F8E#16 := by decide
  have h3 : crcByte 0x1F8E#16 0x31#8 = 0x4BAC#16 := by decide
  have h4 : crcByte 0x4BAC#16 0x30#8 = 0x63FC#16 := by decide
  have h5 : crcByte 0x63FC#16 0x2C#8 = 0x452B#16 := by decide
  have h6 : crcByte 0x452B#16 0x34#8 = 0x45B6#16 := by decide
  have h7 : crcByte 0x45B6#16 0x32#8 = 0xB870#16 := by decide
  have h8 : crcByte 0xB870#16 0x2C#8 = 0xB33D#16 := by decide
  simp only [crcFold_cons, crcFold_nil, h1, h2, h3, h4, h5, h6, h7, h8]

/-- Settles O34. -/
theorem crc16FoldsBytesInAscendingOrder : Obligations.Crc16FoldsBytesInAscendingOrder :=
  ⟨fun _ => rfl, fun _ _ h => crc16_succ h, crcFold_example, rfl, rfl⟩

/-! ## Leading zeros -/

theorem crcFold_zeros (n : Nat) : crcFold 0#16 (List.replicate n 0x00#8) = 0#16 := by
  induction n with
  | zero => rfl
  | succ n ih => rw [List.replicate_succ, crcFold_cons, crcByte_zero, ih]

theorem crc16_zeros_append (zeros count : Nat) (bytes : List Byte) :
    crc16 (List.replicate zeros 0x00#8 ++ bytes) (zeros + count) = crc16 bytes count := by
  have htake : (List.replicate zeros 0x00#8 ++ bytes).take (zeros + count) =
      List.replicate zeros 0x00#8 ++ bytes.take count := by
    simpa using List.take_length_add_append (l₁ := List.replicate zeros 0x00#8) (l₂ := bytes) count
  rw [crc16_eq_fold, htake, crcFold_append, crcFold_zeros, crc16_eq_fold]

/-- Settles O37. -/
theorem leadingZeroBytesLeaveCrcUnchanged : Obligations.LeadingZeroBytesLeaveCrcUnchanged :=
  ⟨fun _ => rfl, crcByte_zero, crc16_zeros_append, by decide⟩

/-! ## Linearity -/

theorem crcFold_xor {as bs : List Byte} (h : as.length = bs.length) (s s' : CrcWord) :
    crcFold (s ^^^ s') (List.zipWith (· ^^^ ·) as bs) = crcFold s as ^^^ crcFold s' bs := by
  induction as generalizing bs s s' with
  | nil => rw [List.eq_nil_of_length_eq_zero h.symm]; rfl
  | cons a as ih =>
    cases bs with
    | nil => cases h
    | cons b bs => simp only [List.zipWith_cons_cons, crcFold_cons, crcByte_xor, ih (Nat.succ.inj h)]

/-- Settles O38: the initial value 0 is the exclusive or of two initial values. -/
theorem crcIsLinear : Obligations.CrcIsLinear := by
  refine ⟨crcRound_xor, crcByte_xor, fun as bs h => ?_⟩
  have hlength : (List.zipWith (· ^^^ ·) as bs).length = as.length := by simp [h]
  rw [crc16_of_length_eq hlength, crc16_length, crc16_length, ← crcFold_xor h, BitVec.xor_zero]

/-! ## Residue -/

/-- Two bytes that are the accumulator itself cancel it before the rounds (40_crc.md R68). -/
theorem crcByte_crcByte_own_halves (s : CrcWord) :
    crcByte (crcByte s (s.extractLsb' 8 8)) (s.extractLsb' 0 8) = 0#16 := by
  have hjoin : s.extractLsb' 8 8 ++ s.extractLsb' 0 8 = s := BitVec.extractLsb'_append_extractLsb' (w := 8) (len := 8)
  have hcancel : s ^^^ (s.extractLsb' 8 8 ++ s.extractLsb' 0 8) = 0#16 := by
    rw [hjoin, BitVec.xor_self]
  rw [crcByte_crcByte, hcancel, crcRounds_zero_word]

/-- Settles O40. -/
theorem crcOfMessageAndItsCrcIsZero : Obligations.CrcOfMessageAndItsCrcIsZero := by
  intro m
  rw [crc16_of_length_eq (by simp), crc16_length, crcFold_append]
  exact crcByte_crcByte_own_halves (crcFold 0#16 m)

/-! ## Which lists have the same CRC -/

theorem crcFold_injective (bytes : List Byte) : Function.Injective (crcFold · bytes) := by
  induction bytes with
  | nil => exact Function.injective_id
  | cons b bytes ih => exact ih.comp (crcByte_left_injective b)

/-- One altered byte gives another accumulator, which the bytes after it keep apart. -/
theorem crcFold_ne_of_byte_ne (s : CrcWord) (front back : List Byte) {b b' : Byte} (h : b ≠ b') :
    crcFold s (front ++ b :: back) ≠ crcFold s (front ++ b' :: back) := by
  intro heq
  simp only [crcFold_append, crcFold_cons] at heq
  exact h (crcByte_right_injective _ (crcFold_injective back heq))

/-- A byte not 0 and two bytes that bring the accumulator back to 0 have the CRC of zeros. -/
theorem exists_crc16_collision {count : Nat} (h : 3 ≤ count) :
    ∃ as bs : List Byte, as.length = count ∧ bs.length = count ∧ as ≠ bs ∧ crc16 as count = crc16 bs count := by
  obtain ⟨n, rfl⟩ := Nat.exists_eq_add_of_le' h
  obtain ⟨a, b, hab⟩ := exists_crcByte_crcByte_eq (crcByte 0#16 0x01#8) 0#16
  have hlength : (0x01#8 :: a :: b :: List.replicate n 0x00#8).length = n + 3 := by simp
  have hzeros : (List.replicate (n + 3) 0x00#8).length = n + 3 := List.length_replicate
  refine ⟨_, _, hlength, hzeros, by simp [List.replicate_succ], ?_⟩
  rw [crc16_of_length_eq hlength, crc16_of_length_eq hzeros, crcFold_cons, crcFold_cons, crcFold_cons, hab,
    crcFold_zeros, crcFold_zeros]

/-- The CRC of two bytes is 16 rounds of their pattern, so it determines them. -/
theorem crc16_pair_inj {a b a' b' : Byte} (h : crc16 [a, b] 2 = crc16 [a', b'] 2) : a = a' ∧ b = b' := by
  rw [crc16_pair, crc16_pair, crcByte_crcByte, crcByte_crcByte] at h
  exact bitVec_append_inj ((BitVec.xor_right_inj 0#16).mp (crcRounds_injective 16 h))

theorem crc16_ab : crc16 [0x61#8, 0x62#8] 2 = 0x74FF#16 := by
  have hfirst : crcByte 0#16 0x61#8 = 0x7C87#16 := by decide
  rw [crc16_pair, hfirst]
  decide

theorem crc16_ba : crc16 [0x62#8, 0x61#8] 2 = 0x11CF#16 := by
  have hfirst : crcByte 0#16 0x62#8 = 0x4CE4#16 := by decide
  rw [crc16_pair, hfirst]
  decide

/-- Settles O36: (a) to (d) by the laws of one round and one byte, (e) to (g) by the fold. -/
theorem crcUpdateIsBijectiveAndDetectsOneByte : Obligations.CrcUpdateIsBijectiveAndDetectsOneByte := by
  refine ⟨Finite.injective_iff_bijective.mp crcRound_injective, crcRound_low_bit, crcByte_left_bijective,
    crcByte_right_injective, fun front back b b' hne => ?_, fun count h => exists_crc16_collision h,
    ⟨crc16_ab, crc16_ba⟩,
    fun a b a' b' => crc16_pair_inj, exists_crcByte_crcByte_eq 0#16⟩
  have hlength : ∀ x : Byte, (front ++ x :: back).length = front.length + 1 + back.length := fun x => by
    rw [List.length_append, List.length_cons, Nat.add_right_comm, Nat.add_assoc]
  rw [crc16_of_length_eq (hlength b), crc16_of_length_eq (hlength b')]
  exact crcFold_ne_of_byte_ne 0#16 front back hne

end Sys2Proof.Machine
end

section
/-! SUPPORT. The commands of unit CRC (40_crc.md R59 to R62): each alone, and that CRC.INIT, CRC.UPDs and CRC.GET, with
anything but another CRC.INIT between them, compute the CRC of the bytes fed. -/
namespace Sys2Proof.Machine

/-! ## One command -/

@[simp] theorem BlockState.setCrc_setCrc (b : BlockState) (v v' : CrcWord) :
    (b.setCrc v).setCrc v' = b.setCrc v' := rfl

/-- Settles O29. -/
theorem crcInitClearsAccumulator : Obligations.CrcInitClearsAccumulator :=
  ⟨exec_eq .crcInit, fun s => by simp [runCommands_cons], rfl,
    fun w h => (decoderReadsTheOpcodeMap w .crcInit).mpr h, rfl⟩

/-- Settles O30: the word is the canonical one, and CRC.UPDs one after another are the fold of the byte update. -/
theorem crcUpdAbsorbsOneByte : Obligations.CrcUpdAbsorbsOneByte := by
  refine ⟨fun b s => exec_eq (.crcUpd b) s, fun b => decode_encode (.crcUpd b), fun bytes s => ?_,
    crcByte_left_bijective, crcByte_right_injective, crcByte_zero, by decide, by decide⟩
  obtain ⟨t, ht, hblock⟩ := runCommands_map_crcUpd bytes s
  exact ⟨t, ht, by rw [hblock]; rfl, (s.sameDec_iff t).mpr (by simp [hblock])⟩

theorem crc16_signed (p : CrcWord) :
    (Result.crc16 p).signed = if 0x8000 ≤ p.toNat then (p.toNat : Int) - 65536 else p.toNat := by
  rw [Result.signed, BitVec.toInt_eq_toNat_cond]
  split <;> split <;> omega

/-- Absorbing yields no result, so the one result of a range is that of its CRC.GET. -/
theorem resultsOf_map_crcUpd_get (bytes : List Byte) (s : State) :
    resultsOf (bytes.map .crcUpd ++ [.crcGet]) s = [.crc16 (crcFold s.crc bytes)] := by
  induction bytes generalizing s with
  | nil => rfl
  | cons b bytes ih => rw [List.map_cons, List.cons_append, resultsOf_cons, ih]; rfl

theorem resultsOf_crcRange (bytes : List Byte) (s : State) :
    resultsOf (.crcInit :: bytes.map .crcUpd ++ [.crcGet]) s = [.crc16 (crcFold 0#16 bytes)] := by
  rw [List.cons_append, resultsOf_cons, resultsOf_map_crcUpd_get]
  rfl

/-- Settles O31: right after CRC.INIT the range is empty. -/
theorem crcGetYieldsAccumulator : Obligations.CrcGetYieldsAccumulator :=
  ⟨exec_eq .crcGet, fun w h => (decoderReadsTheOpcodeMap w .crcGet).mpr h, rfl, crc16_signed, resultsOf_crcRange [],
    resultsOf_map_crcUpd_get [] State.reset, fun s => by rw [resultsOf_crcRange, crcFold_example]⟩

/-! ## A range with other commands between -/

theorem bytesFed_cons (i : Instr) (is : List Instr) : bytesFed (i :: is) = bytesFed [i] ++ bytesFed is := by
  cases i <;> rfl

/-- A command other than CRC.INIT absorbs into CRC the bytes it feeds. -/
theorem blockExec_crc {i : Instr} (b : BlockState) (hi : i ≠ .crcInit) :
    (blockExec i b).1.crc = crcFold b.crc (bytesFed [i]) := by
  cases i with
  | crcInit => exact absurd rfl hi
  | crcUpd x => rfl
  | crcGet => rfl
  | decInit len => rfl
  | decChr c => rfl
  | decGet => rfl

theorem runCommands_crc {is : List Instr} (s : State) (his : .crcInit ∉ is) :
    ∃ t, runCommands is s = .next t ∧ t.crc = crcFold s.crc (bytesFed is) := by
  induction is generalizing s with
  | nil => exact ⟨s, rfl, rfl⟩
  | cons i is ih =>
    obtain ⟨hi, his⟩ := List.ne_and_not_mem_of_not_mem_cons his
    obtain ⟨t, ht, hcrc⟩ := ih (s.after (blockExec i s.block)) his
    refine ⟨t, (runCommands_cons i is s).trans ht, ?_⟩
    rw [hcrc, State.after_block, blockExec_crc s.block hi.symm, bytesFed_cons i is, crcFold_append]

/-- Settles O35: CRC is the fold from 0 over the bytes fed, and CRC.GET yields it. -/
theorem crcCommandsComputeCrc16 : Obligations.CrcCommandsComputeCrc16 := by
  intro is s his
  obtain ⟨t, ht, hcrc⟩ := runCommands_crc (s.after (blockExec .crcInit s.block)) his
  have hfold : t.crc = crc16 (bytesFed is) (bytesFed is).length := hcrc.trans (crc16_length _).symm
  refine ⟨_, runCommands_concat .crcGet ((runCommands_cons _ _ s).trans ht), hfold, ?_⟩
  simp [hfold]

end Sys2Proof.Machine
end

section
/-! SUPPORT. Characters (41_decimal.md R82) and the value of a field without the bookkeeping registers (R73): the fold
of `dec_step` register by register, with the statements about `decode_decimal` and the length of a field. -/
namespace Sys2Proof.Machine

/-! ## Character classes -/

theorem isDigit_eq_decide (c : Byte) : isDigit c = decide (0x30 ≤ c.toNat ∧ c.toNat ≤ 0x39) :=
  (Bool.eq_iff_iff).mpr ((isDigit_iff c).trans decide_eq_true_iff.symm)

theorem not_isDigit {c : Byte} (h : ¬(0x30 ≤ c.toNat ∧ c.toNat ≤ 0x39)) : isDigit c = false :=
  eq_false_of_ne_true (mt (isDigit_iff c).mp h)

theorem charClass_eq_digit_iff (c : Byte) : charClass c = .digit ↔ isDigit c = true := by
  unfold charClass
  split
  · simp [*]
  · split <;> simp [*]

theorem charClass_eq_other {c : Byte} (hd : ¬(0x30 ≤ c.toNat ∧ c.toNat ≤ 0x39)) (hm : c.toNat ≠ 0x2D) :
    charClass c = .other := by
  have hminus : ¬isMinus c = true := fun h => hm (congrArg BitVec.toNat ((isMinus_iff c).mp h))
  rw [charClass, if_neg (mt (isDigit_iff c).mp hd), if_neg hminus]

theorem digitValue_le_nine {c : Byte} (h : isDigit c = true) : digitValue c ≤ 9 :=
  Nat.sub_le_of_le_add ((isDigit_iff c).mp h).2

/-- Settles O44: the three tests in their order, and no test holds of the characters named as other. -/
theorem characterClassesAreAsStated : Obligations.CharacterClassesAreAsStated := by
  refine ⟨fun c => ?_, fun c h => ⟨rfl, digitValue_le_nine ((charClass_eq_digit_iff c).mp h)⟩, by decide,
    fun c h => charClass_eq_other (by omega) (by omega), fun c h => charClass_eq_other (by omega) (by omega)⟩
  simp only [charClass, isDigit_iff, isMinus_iff]

/-! ## The digit step and the negation -/

theorem accumulateDigit_toNat (acc : DecWord) (c : Byte) :
    (accumulateDigit acc c).toNat = (acc.toNat * 10 + (c.toNat - 0x30)) % 2 ^ 32 := rfl

theorem accumulateDigit_ofNat (m : Nat) (c : Byte) :
    accumulateDigit (BitVec.ofNat 32 m) c = BitVec.ofNat 32 (m * 10 + (c.toNat - 0x30)) := by
  apply BitVec.eq_of_toNat_eq
  rw [accumulateDigit_toNat, BitVec.toNat_ofNat, BitVec.toNat_ofNat]
  omega

/-- Digit steps wrap at each digit, and the number that the digits spell wraps once, at the end (41_decimal.md R78). -/
theorem foldl_accumulateDigit (digits : List Byte) :
    digits.foldl accumulateDigit 0#32 = BitVec.ofNat 32 (spelledNumber digits) :=
  List.foldl_hom (BitVec.ofNat 32) accumulateDigit_ofNat

theorem foldl_accumulateDigit_mod (digits : List Byte) : digits.foldl accumulateDigit 0#32 =
    BitVec.ofNat 32 (digits.foldl (fun m c => (m * 10 + (c.toNat - 0x30)) % 2 ^ 32) 0) :=
  List.foldl_hom (BitVec.ofNat 32) fun m c => by
    rw [accumulateDigit_ofNat]
    exact BitVec.eq_of_toNat_eq (by simp)

theorem decValue_true (acc : DecWord) : decValue acc true = -acc :=
  BitVec.eq_of_toNat_eq ((BitVec.toNat_ofNat ..).trans (BitVec.toNat_neg acc).symm)

theorem decValue_eq (acc : DecWord) (neg : Bool) : decValue acc neg = if neg = true then -acc else acc := by
  cases neg with
  | false => rfl
  | true => exact decValue_true acc

/-! ## The fold register by register -/

theorem not_exhausted {rem : Byte} (h : rem ≠ 0#8) : exhausted rem = false :=
  eq_false_of_ne_true (mt (exhausted_iff rem).mp h)

theorem not_exhausted_of_pos {rem : Byte} (h : 0 < rem.toNat) : exhausted rem = false :=
  not_exhausted fun h0 => Nat.ne_of_gt h (congrArg BitVec.toNat h0)

/-- Within the field, ACC takes exactly the digits. -/
theorem decFold_acc {d : DecRegs} {cs : List Byte} (h : cs.length ≤ d.rem.toNat) :
    (decFold d cs).acc = (cs.filter isDigit).foldl accumulateDigit d.acc := by
  induction cs generalizing d with
  | nil => rfl
  | cons c cs ih =>
    rw [List.length_cons] at h
    have hrem : exhausted d.rem = false := not_exhausted_of_pos (by omega)
    have hrest : cs.length ≤ (decStep d c).rem.toNat := by rw [decStep_rem_toNat]; omega
    rw [decFold_cons, ih hrest, decStep_acc, hrem]
    cases hd : isDigit c with
    | true => rw [List.filter_cons_of_pos hd]; rfl
    | false => rw [List.filter_cons_of_neg (by simp [hd])]; rfl

theorem decFold_neg_of_not_first {d : DecRegs} (cs : List Byte) (h : d.first = false) :
    (decFold d cs).neg = d.neg := by
  induction cs generalizing d with
  | nil => rfl
  | cons c cs ih =>
    have hstep : (decStep d c).first = false := by simp [decStep_first, h]
    rw [decFold_cons, ih hstep, decStep_neg]
    simp [leadingMinus, h]

/-- Only the character at index 0 of the field can set NEG. -/
theorem decFold_fieldStart_neg {length : Byte} {cs : List Byte} (h : cs.length ≤ length.toNat) :
    (decFold (fieldStart length) cs).neg = (cs.head? == some Config.minus) := by
  cases cs with
  | nil => rfl
  | cons c cs =>
    have hrem : exhausted length = false := not_exhausted_of_pos (Nat.lt_of_lt_of_le (Nat.succ_pos _) h)
    rw [decFold_cons, decFold_neg_of_not_first cs (by simp [decStep_first, hrem]), decStep_neg]
    simp [hrem, leadingMinus, isMinus]

/-! ## The value of a field -/

/-- The value of the characters of a field (41_decimal.md R73): the number that its digits spell modulo 2^32, negated
where the character at index 0 is the minus. -/
def fieldValue (field : List Byte) : DecWord :=
  decValue (BitVec.ofNat 32 (spelledNumber (field.filter isDigit))) (field.head? == some Config.minus)

theorem decodeDecimal_eq_fieldValue (chars : List Byte) (length : Byte) :
    decodeDecimal chars length = fieldValue (chars.take length.toNat) := by
  have hfits : (chars.take length.toNat).length ≤ length.toNat := List.length_take_le _ _
  rw [fieldValue, ← foldl_accumulateDigit, ← decFold_fieldStart_neg hfits, ← fieldStart_acc length,
    ← decFold_acc hfits]
  rfl

theorem decodeDecimal_of_length_le {chars : List Byte} {length : Byte} (h : chars.length ≤ length.toNat) :
    decodeDecimal chars length = fieldValue chars := by
  rw [decodeDecimal_eq_fieldValue, List.take_of_length_le h]

theorem decodeDecimal_of_length_eq {chars : List Byte} {n : Nat} (h : chars.length = n) (hn : n ≤ 255) :
    decodeDecimal chars (BitVec.ofNat 8 n) = fieldValue chars := by
  apply decodeDecimal_of_length_le
  rw [BitVec.toNat_ofNat, Nat.mod_eq_of_lt (Nat.lt_succ_of_le hn), h]

/-- Settles O45: the value of a field, its magnitude wrapped at each digit. -/
theorem decodeDecimalFoldsTheDigitsOfTheField : Obligations.DecodeDecimalFoldsTheDigitsOfTheField := by
  intro chars length
  have hfilter : (fun c : Byte => decide (0x30 ≤ c.toNat ∧ c.toNat ≤ 0x39)) = isDigit :=
    funext fun c => (isDigit_eq_decide c).symm
  rw [decodeDecimal_eq_fieldValue, fieldValue, decValue_eq, hfilter, ← foldl_accumulateDigit,
    foldl_accumulateDigit_mod]
  simp [Config.minus]

/-! ## The length of a field -/

theorem decodeDecimal_empty (chars : List Byte) : decodeDecimal chars 0#8 = 0#32 := rfl

theorem decodeDecimal_nil (length : Byte) : decodeDecimal [] length = 0#32 := by
  rw [decodeDecimal_eq_fieldValue, List.take_nil]
  rfl

theorem decodeDecimal_append {chars : List Byte} {length : Byte} (more : List Byte) (h : chars.length = length.toNat) :
    decodeDecimal (chars ++ more) length = decodeDecimal chars length := by
  rw [decodeDecimal_eq_fieldValue, List.take_left' h, decodeDecimal_of_length_le h.le]

/-- Fewer characters than the length give the value of the shorter field (41_decimal.md R83 (c)). -/
theorem decodeDecimal_short {chars : List Byte} {length : Byte} (h : chars.length ≤ length.toNat) :
    decodeDecimal chars length = decodeDecimal chars (BitVec.ofNat 8 chars.length) := by
  rw [decodeDecimal_of_length_le h, decodeDecimal_of_length_eq rfl (h.trans (Nat.le_of_lt_succ length.isLt))]

theorem fieldValue_skip_other {front : List Byte} (back : List Byte) {c : Byte} (hfront : front ≠ [])
    (hc : isDigit c = false) : fieldValue (front ++ c :: back) = fieldValue (front ++ back) := by
  have hfilter : (c :: back).filter isDigit = back.filter isDigit := List.filter_cons_of_neg (by simp [hc])
  rw [fieldValue, fieldValue, List.filter_append, List.filter_append, hfilter, List.head?_append_of_ne_nil _ hfront,
    List.head?_append_of_ne_nil _ hfront]

/-- Settles O47: a field of the length given is its own value, and a character that is no digit is not in it. -/
theorem fieldLengthAloneDelimitsTheField : Obligations.FieldLengthAloneDelimitsTheField := by
  refine ⟨fun _ more _ h => decodeDecimal_append more h, fun _ _ h => decodeDecimal_short h, decodeDecimal_empty,
    ⟨by decide, by decide⟩, fun front back c hfront hc hlen => ?_⟩
  have hlong : (front ++ c :: back).length = front.length + 1 + back.length := by
    rw [List.length_append, List.length_cons, Nat.add_right_comm, Nat.add_assoc]
  rw [decodeDecimal_of_length_eq hlong hlen, decodeDecimal_of_length_eq List.length_append (by omega),
    fieldValue_skip_other back hfront hc]

end Sys2Proof.Machine
end

section
/-! SUPPORT. The commands of unit DEC (41_decimal.md R74 to R77): each alone, and that DEC.INIT, DEC.CHRs and DEC.GET,
with anything but another DEC.INIT between them, compute the value of the characters fed. -/
namespace Sys2Proof.Machine

/-! ## One field -/

@[simp] theorem BlockState.setDec_setDec (b : BlockState) (d d' : DecRegs) : (b.setDec d).setDec d' = b.setDec d' := rfl

/-- Scanning yields no result, so the one result of a field is that of its DEC.GET. -/
theorem resultsOf_map_decChr_get (chars : List Byte) (s : State) :
    resultsOf (chars.map .decChr ++ [.decGet]) s =
      [.dec32 (decValue (decFold s.block.decRegs chars).acc (decFold s.block.decRegs chars).neg)] := by
  induction chars generalizing s with
  | nil => rfl
  | cons c chars ih => rw [List.map_cons, List.cons_append, resultsOf_cons, ih]; rfl

theorem resultsOf_decField (len : Byte) (chars : List Byte) (s : State) :
    resultsOf (.decInit len :: chars.map .decChr ++ [.decGet]) s = [.dec32 (decodeDecimal chars len)] := by
  rw [List.cons_append, resultsOf_cons, resultsOf_map_decChr_get, decodeDecimal_eq_fold]
  rfl

theorem runCommands_decChr_of_exhausted (chars : List Byte) {s : State} (hrem : s.rem = 0#8)
    (hresult : s.result = none) : runCommands (chars.map .decChr) s = .next s := by
  have hkeep : s.yielding none = s := by rw [← hresult, State.yielding_self]
  induction chars with
  | nil => rfl
  | cons c chars ih =>
    rw [List.map_cons, runCommands_cons_of_next _ (exec_decChr_of_exhausted c hrem), hkeep, ih]

/-- Settles O41: with length 0 the field is over before its first character. -/
theorem decInitStartsField : Obligations.DecInitStartsField := by
  refine ⟨fun len s => exec_eq (.decInit len) s, fun len => decode_encode (.decInit len),
    fun len s => by simp [runCommands_cons], fun chars s => ⟨?_, resultsOf_decField 0#8 chars s⟩⟩
  rw [runCommands_cons, runCommands_cons, runCommands_nil]
  exact runCommands_decChr_of_exhausted chars rfl rfl

/-- Settles O42: the four cases of `dec_step` in their order. -/
theorem decChrTakesTheFourCasesInOrder : Obligations.DecChrTakesTheFourCasesInOrder := by
  refine ⟨fun c s => ?_, fun c => decode_encode (.decChr c)⟩
  by_cases hrem : s.rem = 0#8
  · rw [if_pos hrem]
    exact exec_decChr_of_exhausted c hrem
  have hscan : exhausted s.block.decRegs.rem = false := not_exhausted hrem
  rw [if_neg hrem, exec_eq, blockExec_decChr]
  by_cases hminus : s.first = true ∧ c = 0x2D#8
  · rw [if_pos hminus, decStep_minus hscan ((leadingMinus_iff ..).mpr hminus)]
    rfl
  have hother : leadingMinus s.block.decRegs.first c = false :=
    eq_false_of_ne_true (mt (leadingMinus_iff ..).mp hminus)
  rw [if_neg hminus]
  by_cases hdigit : 0x30 ≤ c.toNat ∧ c.toNat ≤ 0x39
  · have hacc : BitVec.ofNat 32 ((s.acc.toNat * 10 + (c.toNat - 0x30)) % 2 ^ 32) = accumulateDigit s.acc c := by
      rw [← accumulateDigit_toNat, BitVec.ofNat_toNat, BitVec.setWidth_eq]
    rw [if_pos hdigit, decStep_digit hscan ((isDigit_iff c).mpr hdigit), hacc]
    rfl
  · rw [if_neg hdigit, decStep_other hscan hother (not_isDigit hdigit)]
    rfl

/-- Settles O43: right after DEC.INIT the field is empty, and read early it is the shorter field. -/
theorem decGetYieldsSignedValue : Obligations.DecGetYieldsSignedValue := by
  refine ⟨fun s => ?_, decValue_eq, fun acc => ?_, fun w h => (decoderReadsTheOpcodeMap w .decGet).mpr h, rfl,
    fun len s => ?_, rfl, fun chars len s h => ?_, by decide, by decide, by decide,
    by decide, by decide⟩
  · rw [exec_eq, blockExec_decGet, decValue_eq, BitVec.neg_eq_not_add]
    rfl
  · rw [decValue_true, BitVec.toNat_neg]
  · rw [← decodeDecimal_nil len]
    exact resultsOf_decField len [] s
  · rw [resultsOf_decField, decodeDecimal_short h]

/-! ## A field with other commands between -/

/-- A command other than DEC.INIT scans the characters it feeds. -/
theorem blockExec_decRegs {i : Instr} (b : BlockState) (hi : ∀ len, i ≠ .decInit len) :
    (blockExec i b).1.decRegs = decFold b.decRegs (charsFed [i]) := by
  cases i with
  | decInit len => exact absurd rfl (hi len)
  | decChr c => rfl
  | crcInit => rfl
  | crcUpd x => rfl
  | crcGet => rfl
  | decGet => rfl

theorem runCommands_dec {is : List Instr} (s : State) (his : ∀ len, .decInit len ∉ is) :
    ∃ t, runCommands is s = .next t ∧ t.block.decRegs = decFold s.block.decRegs (charsFed is) := by
  induction is generalizing s with
  | nil => exact ⟨s, rfl, rfl⟩
  | cons i is ih =>
    have hi : ∀ len, i ≠ .decInit len := fun len h => his len (h ▸ List.mem_cons_self)
    obtain ⟨t, ht, hdec⟩ := ih (s.after (blockExec i s.block)) (fun len h => his len (List.mem_cons_of_mem i h))
    refine ⟨t, (runCommands_cons i is s).trans ht, ?_⟩
    rw [hdec, State.after_block, blockExec_decRegs s.block hi, charsFed_cons i is, decFold_append]

/-- Settles O46: the DEC registers are the fold over the characters fed, and DEC.GET yields its value. -/
theorem decCommandsComputeDecodeDecimal : Obligations.DecCommandsComputeDecodeDecimal := by
  intro len is s his
  obtain ⟨t, ht, hdec⟩ := runCommands_dec (s.after (blockExec (.decInit len) s.block)) his
  have hfold : t.block.decRegs = decFold (fieldStart len) (charsFed is) := hdec
  refine ⟨_, runCommands_concat .decGet ((runCommands_cons _ _ s).trans ht), ?_⟩
  rw [decodeDecimal_eq_fold, ← hfold]
  rfl

end Sys2Proof.Machine
end

section
/-! SUPPORT. The number that a field spells (41_decimal.md R78, R79): when its pattern reads as the number itself, and
what negation does at the corners. -/
namespace Sys2Proof.Machine

/-! ## The number that digits spell -/

theorem spelledNumber_concat (digits : List Byte) (c : Byte) :
    spelledNumber (digits ++ [c]) = spelledNumber digits * 10 + digitValue c := List.foldl_concat ..

theorem spelledNumber_lt_pow {digits : List Byte} (h : ∀ c ∈ digits, isDigit c = true) :
    spelledNumber digits < 10 ^ digits.length := by
  induction digits using List.reverseRecOn with
  | nil => exact Nat.one_pos
  | append_singleton digits c ih =>
    have hfront : spelledNumber digits < 10 ^ digits.length := ih fun x hx => h x (List.mem_append_left _ hx)
    have hlast : digitValue c ≤ 9 := digitValue_le_nine (h c (by simp))
    rw [spelledNumber_concat, List.length_append, List.length_singleton, Nat.pow_succ]
    omega

/-! ## Fields of digits -/

section
variable {digits : List Byte} (hdigits : ∀ c ∈ digits, isDigit c = true)
include hdigits

theorem fieldValue_digits : fieldValue digits = BitVec.ofNat 32 (spelledNumber digits) := by
  have hhead : (digits.head? == some Config.minus) = false := by
    rw [beq_eq_false_iff_ne]
    intro h
    exact absurd (hdigits _ (List.mem_of_head? h)) (by decide)
  rw [fieldValue, hhead, List.filter_eq_self.mpr hdigits, decValue_false]

theorem fieldValue_minus_digits : fieldValue (0x2D#8 :: digits) = BitVec.ofInt 32 (-(spelledNumber digits : Int)) := by
  have hfilter : (0x2D#8 :: digits).filter isDigit = digits := List.filter_eq_self.mpr hdigits
  rw [fieldValue, hfilter, ← BitVec.neg_ofNat_eq_ofInt_neg, ← decValue_true]
  rfl

end

/-- A number is the two's complement reading of its own pattern exactly where it fits (41_decimal.md R78). -/
theorem toInt_ofInt_eq_iff (i : Int) : (BitVec.ofInt 32 i).toInt = i ↔ -2 ^ 31 ≤ i ∧ i < 2 ^ 31 := by
  refine ⟨fun h => ?_, fun ⟨hlo, hhi⟩ => BitVec.toInt_ofInt_eq_self (by decide) hlo hhi⟩
  rw [← h]
  exact ⟨BitVec.le_toInt _, BitVec.toInt_lt⟩

theorem accumulateDigit_eq_shifts (acc : DecWord) (c : Byte) :
    accumulateDigit acc c = (acc <<< 3) + (acc <<< 1) + BitVec.ofNat 32 (c.toNat - 0x30) := by
  apply BitVec.eq_of_toNat_eq
  rw [accumulateDigit_toNat, BitVec.toNat_add, BitVec.toNat_add, BitVec.toNat_shiftLeft, BitVec.toNat_shiftLeft,
    BitVec.toNat_ofNat, Nat.shiftLeft_eq, Nat.shiftLeft_eq]
  omega

/-- Settles O48: the pattern is that of the number spelled or of its negation, and the reading of a pattern is exact
where the number fits. -/
theorem decimalFieldWrapsModuloTwoToThe32 : Obligations.DecimalFieldWrapsModuloTwoToThe32 := by
  refine ⟨fun acc c _ => ⟨accumulateDigit_toNat acc c, accumulateDigit_eq_shifts acc c⟩, fun digits hd hlen => ?_,
    fun digits hd hlen => ?_, fun digits hd hlen => ?_⟩
  · rw [decodeDecimal_of_length_eq rfl hlen, fieldValue_digits hd, ← BitVec.ofInt_natCast, toInt_ofInt_eq_iff]
    exact ⟨rfl, by omega⟩
  · rw [decodeDecimal_of_length_eq (List.length_cons ..) (Nat.succ_le_succ hlen), fieldValue_minus_digits hd,
      toInt_ofInt_eq_iff]
    exact ⟨rfl, by omega⟩
  · exact Nat.le_of_lt_succ ((spelledNumber_lt_pow hd).trans_le (Nat.pow_le_pow_right (by decide) hlen))

/-! ## Negation -/

/-- Settles O49: the pattern 0x80000000 is the least number, whose negation is out of range. -/
theorem negationFixesOnlyZeroAndTheMinimum : Obligations.NegationFixesOnlyZeroAndTheMinimum := by
  refine ⟨fun acc => ?_, fun acc hmin => ?_, by decide, by decide⟩
  · rw [decValue_true]
    bv_omega
  · rw [decValue_true]
    exact BitVec.toInt_neg_of_ne_intMin hmin

end Sys2Proof.Machine
end

section
/-! SUPPORT. The reference encoder (41_decimal.md R80): its digits, the round-trip law (R81), and the two spellings of
a CRC (R86). -/
namespace Sys2Proof.Machine

/-! ## One digit -/

theorem isDigit_digitChar : ∀ d < 10, isDigit (digitChar d) = true := by decide

theorem digitValue_digitChar : ∀ d < 10, digitValue (digitChar d) = d := by decide

/-! ## The digits of a magnitude -/

theorem digitsUpTo_succ_of_lt (k : Nat) {n : Nat} (h : n < 10) : digitsUpTo (k + 1) n = [digitChar n] := if_pos h

theorem digitsUpTo_succ_of_le (k : Nat) {n : Nat} (h : 10 ≤ n) :
    digitsUpTo (k + 1) n = digitsUpTo k (n / 10) ++ [digitChar (n % 10)] := if_neg (Nat.not_lt.mpr h)

theorem digitsUpTo_ne_nil (k n : Nat) : digitsUpTo k n ≠ [] := by
  cases k with
  | zero => exact List.cons_ne_nil _ _
  | succ k =>
    obtain h | h := Nat.lt_or_ge n 10
    · rw [digitsUpTo_succ_of_lt k h]
      exact List.cons_ne_nil _ _
    · rw [digitsUpTo_succ_of_le k h]
      exact List.concat_ne_nil _ _

theorem digitsUpTo_length_le (k n : Nat) : (digitsUpTo k n).length ≤ k + 1 := by
  induction k generalizing n with
  | zero => exact le_rfl
  | succ k ih =>
    obtain h | h := Nat.lt_or_ge n 10
    · rw [digitsUpTo_succ_of_lt k h]
      exact Nat.succ_le_succ (Nat.zero_le _)
    · rw [digitsUpTo_succ_of_le k h, List.length_append]
      exact Nat.succ_le_succ (ih _)

/-- The last digit and the digits before it, for a number within the bound. -/
theorem digitsUpTo_induct {P : Nat → List Byte → Prop} (hone : ∀ n < 10, P n [digitChar n])
    (hmore : ∀ n ds, 10 ≤ n → ds ≠ [] → P (n / 10) ds → P n (ds ++ [digitChar (n % 10)])) {k n : Nat}
    (hn : n < 10 ^ (k + 1)) : P n (digitsUpTo k n) := by
  induction k generalizing n with
  | zero => exact hone n hn
  | succ k ih =>
    obtain h | h := Nat.lt_or_ge n 10
    · rw [digitsUpTo_succ_of_lt k h]
      exact hone n h
    · rw [digitsUpTo_succ_of_le k h]
      exact hmore n _ h (digitsUpTo_ne_nil k _) (ih (Nat.div_lt_of_lt_mul (by rwa [← Nat.pow_succ'])))

section
variable {k n : Nat} (hn : n < 10 ^ (k + 1))
include hn

theorem isDigit_of_mem_digitsUpTo : ∀ c ∈ digitsUpTo k n, isDigit c = true := by
  refine digitsUpTo_induct (P := fun _ ds => ∀ c ∈ ds, isDigit c = true) (fun n h => ?_) (fun n ds _ _ ih => ?_) hn
  · simpa using isDigit_digitChar n h
  · have hlast : isDigit (digitChar (n % 10)) = true := isDigit_digitChar _ (Nat.mod_lt n (by decide))
    simpa [or_imp, forall_and, hlast] using ih

theorem spelledNumber_digitsUpTo : spelledNumber (digitsUpTo k n) = n := by
  refine digitsUpTo_induct (P := fun n ds => spelledNumber ds = n) (fun n h => ?_) (fun n ds _ _ ih => ?_) hn
  · exact (spelledNumber_concat [] _).trans ((Nat.zero_add _).trans (digitValue_digitChar n h))
  · rw [spelledNumber_concat, ih, digitValue_digitChar _ (Nat.mod_lt n (by decide)), Nat.div_add_mod']

/-- No leading zero: only the number 0 begins with the digit 0. -/
theorem digitsUpTo_head_zero (h : (digitsUpTo k n).head? = some 0x30#8) : n = 0 := by
  revert h
  refine digitsUpTo_induct (P := fun n ds => ds.head? = some 0x30#8 → n = 0) (fun n h hhead => ?_)
    (fun n ds hle hne ih hhead => ?_) hn
  · rw [← digitValue_digitChar n h, Option.some.inj hhead]
    rfl
  · rw [List.head?_append_of_ne_nil ds hne] at hhead
    have hdiv : n / 10 = 0 := ih hhead
    omega

end

/-! ## The rendering of a number -/

theorem natAbs_toInt_lt (v : DecWord) : v.toInt.natAbs < 10 ^ (9 + 1) := by
  have hlo : -2 ^ 31 ≤ v.toInt := BitVec.le_toInt v
  have hhi : v.toInt < 2 ^ 31 := BitVec.toInt_lt
  omega

theorem encodeDecimal_eq (v : DecWord) : encodeDecimal v =
    if v.toInt < 0 then 0x2D#8 :: renderMagnitude v.toInt.natAbs else renderMagnitude v.toInt.natAbs := rfl

theorem isDigit_of_mem_renderMagnitude (v : DecWord) : ∀ c ∈ renderMagnitude v.toInt.natAbs, isDigit c = true :=
  isDigit_of_mem_digitsUpTo (natAbs_toInt_lt v)

theorem spelledNumber_renderMagnitude (v : DecWord) : spelledNumber (renderMagnitude v.toInt.natAbs) = v.toInt.natAbs :=
  spelledNumber_digitsUpTo (natAbs_toInt_lt v)

theorem encodeDecimal_length (v : DecWord) : 1 ≤ (encodeDecimal v).length ∧ (encodeDecimal v).length ≤ 11 := by
  have hpos : 0 < (renderMagnitude v.toInt.natAbs).length := List.length_pos_of_ne_nil (digitsUpTo_ne_nil _ _)
  have hle : (renderMagnitude v.toInt.natAbs).length ≤ 10 := digitsUpTo_length_le _ _
  rw [encodeDecimal_eq]
  split
  · rw [List.length_cons]
    omega
  · omega

/-- Settles O50: the digits are those of the magnitude. -/
theorem encodeDecimalIsStandardRendering : Obligations.EncodeDecimalIsStandardRendering := by
  refine ⟨fun v => ⟨(encodeDecimal_length v).1, (encodeDecimal_length v).2, renderMagnitude v.toInt.natAbs,
    encodeDecimal_eq v, digitsUpTo_ne_nil _ _, isDigit_of_mem_renderMagnitude v, spelledNumber_renderMagnitude v,
    fun hhead => ?_⟩, by decide, by decide⟩
  rw [digitsUpTo_head_zero (natAbs_toInt_lt v) hhead]
  rfl

/-! ## The round trip -/

theorem fieldValue_encodeDecimal (v : DecWord) : fieldValue (encodeDecimal v) = v := by
  have hdigits := isDigit_of_mem_renderMagnitude v
  rw [encodeDecimal_eq]
  split
  next hneg =>
    rw [fieldValue_minus_digits hdigits, spelledNumber_renderMagnitude, Int.ofNat_natAbs_of_nonpos hneg.le, Int.neg_neg,
      BitVec.ofInt_toInt]
  next hnonneg =>
    rw [fieldValue_digits hdigits, spelledNumber_renderMagnitude, ← BitVec.ofInt_natCast,
      Int.natAbs_of_nonneg (Int.not_lt.mp hnonneg), BitVec.ofInt_toInt]

theorem decodeDecimal_encodeDecimal (v : DecWord) :
    decodeDecimal (encodeDecimal v) (BitVec.ofNat 8 (encodeDecimal v).length) = v := by
  rw [decodeDecimal_of_length_eq rfl ((encodeDecimal_length v).2.trans (by decide)), fieldValue_encodeDecimal]

/-- Settles O51. -/
theorem decodeOfEncodedDecimalIsTheValue : Obligations.DecodeOfEncodedDecimalIsTheValue :=
  ⟨fun v => congrArg BitVec.toInt (decodeDecimal_encodeDecimal v), by decide⟩

theorem low16_signExtend (p : CrcWord) : (p.signExtend 32).extractLsb' 0 16 = p := by
  ext i hi
  have hwide : i < 32 := hi.trans (by decide)
  simp [BitVec.getElem_signExtend, hi, hwide]

theorem low16_setWidth (p : CrcWord) : (p.setWidth 32).extractLsb' 0 16 = p := by
  ext i hi
  have hwide : i < 32 := hi.trans (by decide)
  simp [hi, hwide]

/-- Settles O52: each spelling is the rendering of the widened pattern. -/
theorem bothSpellingsOfCrcDecodeToItsLow16Bits : Obligations.BothSpellingsOfCrcDecodeToItsLow16Bits :=
  fun p => ⟨decodeDecimal_encodeDecimal _, decodeDecimal_encodeDecimal _, low16_signExtend p, low16_setWidth p⟩

end Sys2Proof.Machine
end

section
/-! SUPPORT. Which steps complete (60_exceptions.md R90, R92; 70_reset_and_hazards.md R106, R116): every command in
every state, a reset whatever stands beside it, and every step while the host presents no reserved word as a command. -/
namespace Sys2Proof.Machine

/-- Settles O1: the next state is the block's by `exec_eq`, and each command's equation on the block shows its result. -/
theorem everyCommandCompletesInEveryState : Obligations.EveryCommandCompletesInEveryState := by
  refine fun i s => ⟨_, exec_eq i s, State.after_input s _, ?_⟩
  rw [State.after_result]
  cases i <;> simp

/-- Settles O12: the block's step on the event does not read the word. -/
theorem resetBeatsSimultaneousCommand : Obligations.ResetBeatsSimultaneousCommand :=
  fun s w _ hs => step_of_blockStep_ok hs (blockStep_resetWithCommand s.block w)

/-! ## Defined input -/

theorem HostEvent.defined_iff (e : HostEvent) : e.defined = true ↔ ∀ w, e = .command w → isReserved w = false := by
  cases e <;> simp [HostEvent.defined]

theorem State.inputDefined_iff (s : State) : s.inputDefined = true ↔ ∀ e ∈ s.input, e.defined = true := List.all_eq_true

/-- The block refuses reserved words only, so it completes a defined event. -/
theorem exists_blockStep_ok_of_defined {e : HostEvent} (b : BlockState) (he : e.defined = true) :
    ∃ o, blockStep b e = .ok o := by
  cases hb : blockStep b e with
  | ok o => exact ⟨o, rfl⟩
  | error r =>
    obtain ⟨w, hw, -, hreserved⟩ := (blockStep_eq_error_iff b e r).mp hb
    have hdefined : isReserved w = false := e.defined_iff.mp he w hw
    cases hdefined.symm.trans hreserved

/-- A step takes at most one event off the input, so what stays is defined as it was. -/
theorem step_keeps_inputDefined {s : State} (h : s.inputDefined = true) :
    ∃ t, step s = .next t ∧ t.inputDefined = true := by
  cases hs : s.input with
  | nil => exact ⟨s.idle, step_nothing hs, h⟩
  | cons e rest =>
    rw [State.inputDefined_iff, hs, List.forall_mem_cons] at h
    obtain ⟨he, hrest⟩ := h
    obtain ⟨o, ho⟩ := exists_blockStep_ok_of_defined s.block he
    exact ⟨_, step_of_blockStep_ok hs ho, (State.inputDefined_iff _).mpr hrest⟩

/-- Settles O17, by induction on the number of steps. -/
theorem definedInputNeverStops : Obligations.DefinedInputNeverStops := by
  intro n
  induction n with
  | zero => exact fun s h => ⟨s, rfl, h⟩
  | succ n ih =>
    intro s h
    obtain ⟨u, hstep, hu⟩ := step_keeps_inputDefined h
    rw [run_succ_of_next n hstep]
    exact ih u hu

end Sys2Proof.Machine
end

section
/-! SUPPORT. The two steps that run no command (70_reset_and_hazards.md): a reset event (R105) and nothing presented
(R117). -/
namespace Sys2Proof.Machine

/-- Settles O11: on a reset event the block answers the reset block and no result whatever it was before, and that
beside the rest of the input is the state written out. -/
theorem resetEventAnswersResetState : Obligations.ResetEventAnswersResetState :=
  ⟨rfl, fun s _ hs => step_of_blockStep_ok hs (blockStep_reset s.block)⟩

/-- Settles O15: with no event to take, the step is the idle one, which clears the result only. -/
theorem nothingPresentedHoldsTheState : Obligations.NothingPresentedHoldsTheState :=
  fun s hs => (step_nothing hs).trans (congrArg Host.Outcome.next s.idle_eq)

end Sys2Proof.Machine
end
